-- ==== Sys2Proof/Word.lean ====
section
/-! DEFINITION. The word types of the CHIP-8 core: 8-bit bytes, 16-bit words, register selectors. -/

namespace Sys2Proof

/-- A byte: a general register, a timer, a memory cell (R5, R12, R20). -/
abbrev Byte := BitVec 8

/-- A 16-bit word: an instruction word, `PC`, `I`, a stack entry, `KEYS` (R5). -/
abbrev Word := BitVec 16

/-- A register selector, the fields `X` and `Y`: every value names an existing register (R20). -/
abbrev Reg := Fin 16

end Sys2Proof
end

