-- ==== Sys2Proof/Syntax.lean ====
section
/-! DEFINITION. The instructions: one constructor per row of the opcode map (R86). -/

namespace Sys2Proof

/-- The 34 instructions. `x` and `y` are register selectors, `nn` the byte field, `nnn` the address field
(a natural number, R60, below 4096) and `n` the sprite height (a count below 16): see `Instr.wellFormed`. -/
inductive Instr where
  /-- `00E0` CLS (R160). -/
  | cls
  /-- `00EE` RET (R100). -/
  | ret
  /-- `1NNN` JP (R101). -/
  | jp (nnn : Nat)
  /-- `2NNN` CALL (R102). -/
  | call (nnn : Nat)
  /-- `3XNN` SE_IMM (R104). -/
  | seImm (x : Reg) (nn : Byte)
  /-- `4XNN` SNE_IMM (R105). -/
  | sneImm (x : Reg) (nn : Byte)
  /-- `5XY0` SE_REG (R106). -/
  | seReg (x y : Reg)
  /-- `6XNN` LD_IMM (R120). -/
  | ldImm (x : Reg) (nn : Byte)
  /-- `7XNN` ADD_IMM (R121). -/
  | addImm (x : Reg) (nn : Byte)
  /-- `8XY0` LD_REG (R122). -/
  | ldReg (x y : Reg)
  /-- `8XY1` OR (R123). -/
  | orReg (x y : Reg)
  /-- `8XY2` AND (R124). -/
  | andReg (x y : Reg)
  /-- `8XY3` XOR (R125). -/
  | xorReg (x y : Reg)
  /-- `8XY4` ADD_REG (R126). -/
  | addReg (x y : Reg)
  /-- `8XY5` SUB (R127). -/
  | sub (x y : Reg)
  /-- `8XY6` SHR (R128); `y` is encoded and ignored. -/
  | shr (x y : Reg)
  /-- `8XY7` SUBN (R129). -/
  | subn (x y : Reg)
  /-- `8XYE` SHL (R130); `y` is encoded and ignored. -/
  | shl (x y : Reg)
  /-- `9XY0` SNE_REG (R107). -/
  | sneReg (x y : Reg)
  /-- `ANNN` LD_I (R140). -/
  | ldI (nnn : Nat)
  /-- `BNNN` JP_V0 (R103). -/
  | jpV0 (nnn : Nat)
  /-- `CXNN` RND (R131). -/
  | rnd (x : Reg) (nn : Byte)
  /-- `DXYN` DRW (R161). -/
  | drw (x y : Reg) (n : Nat)
  /-- `EX9E` SKP (R170). -/
  | skp (x : Reg)
  /-- `EXA1` SKNP (R171). -/
  | sknp (x : Reg)
  /-- `FX07` LD_VX_DT (R176). -/
  | ldVxDt (x : Reg)
  /-- `FX0A` LD_VX_K (R172). -/
  | ldVxK (x : Reg)
  /-- `FX15` LD_DT_VX (R177). -/
  | ldDtVx (x : Reg)
  /-- `FX18` LD_ST_VX (R178). -/
  | ldStVx (x : Reg)
  /-- `FX1E` ADD_I (R141). -/
  | addI (x : Reg)
  /-- `FX29` LD_F (R142). -/
  | ldF (x : Reg)
  /-- `FX33` LD_B (R143). -/
  | ldB (x : Reg)
  /-- `FX55` ST_REGS (R144); `x` is the last register stored. -/
  | stRegs (x : Reg)
  /-- `FX65` LD_REGS (R145); `x` is the last register loaded. -/
  | ldRegs (x : Reg)
  deriving DecidableEq, Repr

end Sys2Proof
end

