-- ==== Sys2Proof/WellFormed.lean ====
section
/-! DEFINITION. Which instructions an encoding can hold: the ranges of the fields `NNN` and `N` (R81, R83). -/

namespace Sys2Proof

/-- The address field is 12 bits: 0 to 4095 (R83). -/
def nnnFits (nnn : Nat) : Bool := decide (nnn < 4096)

/-- The height field is 4 bits: 0 to 15 (R83). -/
def heightFits (n : Nat) : Bool := decide (n < 16)

/-- The operands fit their fields. Selectors and bytes fit by their types (R20: no selector is out of range). -/
def Instr.wellFormed : Instr → Bool
  | .cls => true
  | .ret => true
  | .jp nnn => nnnFits nnn
  | .call nnn => nnnFits nnn
  | .seImm _ _ => true
  | .sneImm _ _ => true
  | .seReg _ _ => true
  | .ldImm _ _ => true
  | .addImm _ _ => true
  | .ldReg _ _ => true
  | .orReg _ _ => true
  | .andReg _ _ => true
  | .xorReg _ _ => true
  | .addReg _ _ => true
  | .sub _ _ => true
  | .shr _ _ => true
  | .subn _ _ => true
  | .shl _ _ => true
  | .sneReg _ _ => true
  | .ldI nnn => nnnFits nnn
  | .jpV0 nnn => nnnFits nnn
  | .rnd _ _ => true
  | .drw _ _ n => heightFits n
  | .skp _ => true
  | .sknp _ => true
  | .ldVxDt _ => true
  | .ldVxK _ => true
  | .ldDtVx _ => true
  | .ldStVx _ => true
  | .addI _ => true
  | .ldF _ => true
  | .ldB _ => true
  | .stRegs _ => true
  | .ldRegs _ => true

end Sys2Proof
end

