-- ==== Sys2Proof/Decode.lean ====
section
/-! DEFINITION. The decoder (R80 to R94), total on any bytes, and after it the encoder. -/

namespace Sys2Proof

/-- The instruction word held by two consecutive bytes: the byte at the lower address is bits 15 to 8 (R66). -/
def wordOfBytes (hi lo : Byte) : Word := hi ++ lo

/-- The byte of a word that lies at the lower address (R66). -/
def highByte (w : Word) : Byte := w.extractLsb' 8 8

/-- The byte of a word that lies at the higher address (R66). -/
def lowByte (w : Word) : Byte := w.extractLsb' 0 8

/-- The fields the decoder extracts from every word (R81). -/
structure Fields where
  op : Nat
  x : Reg
  y : Reg
  n : Nat
  nn : Byte
  nnn : Nat
  deriving DecidableEq, Repr

/-- R81: `OP` bits 15-12, `X` bits 11-8, `Y` bits 7-4, `N` bits 3-0, `NN` bits 7-0, `NNN` bits 11-0. -/
def fieldsOf (w : Word) : Fields where
  op := (w.extractLsb' 12 4).toNat
  x := (w.extractLsb' 8 4).toFin
  y := (w.extractLsb' 4 4).toFin
  n := (w.extractLsb' 0 4).toNat
  nn := w.extractLsb' 0 8
  nnn := (w.extractLsb' 0 12).toNat

/-- A row of the opcode map: a word `w` is the instruction when `(w & mask) = pattern` (R86). -/
structure Row where
  mnemonic : String
  mask : Word
  pattern : Word
  build : Fields → Instr

/-- R85: the test of one row. -/
def Row.covers (r : Row) (w : Word) : Bool := (w &&& r.mask) == r.pattern

/-- The rows of R86 whose top nibble is 0 to 7. -/
def rowsLow : List Row :=
  [⟨"CLS", 0xFFFF, 0x00E0, fun _ => .cls⟩,
   ⟨"RET", 0xFFFF, 0x00EE, fun _ => .ret⟩,
   ⟨"JP", 0xF000, 0x1000, fun f => .jp f.nnn⟩,
   ⟨"CALL", 0xF000, 0x2000, fun f => .call f.nnn⟩,
   ⟨"SE_IMM", 0xF000, 0x3000, fun f => .seImm f.x f.nn⟩,
   ⟨"SNE_IMM", 0xF000, 0x4000, fun f => .sneImm f.x f.nn⟩,
   ⟨"SE_REG", 0xF00F, 0x5000, fun f => .seReg f.x f.y⟩,
   ⟨"LD_IMM", 0xF000, 0x6000, fun f => .ldImm f.x f.nn⟩,
   ⟨"ADD_IMM", 0xF000, 0x7000, fun f => .addImm f.x f.nn⟩]

/-- The rows of R86 whose top nibble is 8. -/
def rowsEight : List Row :=
  [⟨"LD_REG", 0xF00F, 0x8000, fun f => .ldReg f.x f.y⟩,
   ⟨"OR", 0xF00F, 0x8001, fun f => .orReg f.x f.y⟩,
   ⟨"AND", 0xF00F, 0x8002, fun f => .andReg f.x f.y⟩,
   ⟨"XOR", 0xF00F, 0x8003, fun f => .xorReg f.x f.y⟩,
   ⟨"ADD_REG", 0xF00F, 0x8004, fun f => .addReg f.x f.y⟩,
   ⟨"SUB", 0xF00F, 0x8005, fun f => .sub f.x f.y⟩,
   ⟨"SHR", 0xF00F, 0x8006, fun f => .shr f.x f.y⟩,
   ⟨"SUBN", 0xF00F, 0x8007, fun f => .subn f.x f.y⟩,
   ⟨"SHL", 0xF00F, 0x800E, fun f => .shl f.x f.y⟩]

/-- The rows of R86 whose top nibble is 9 to E. -/
def rowsHigh : List Row :=
  [⟨"SNE_REG", 0xF00F, 0x9000, fun f => .sneReg f.x f.y⟩,
   ⟨"LD_I", 0xF000, 0xA000, fun f => .ldI f.nnn⟩,
   ⟨"JP_V0", 0xF000, 0xB000, fun f => .jpV0 f.nnn⟩,
   ⟨"RND", 0xF000, 0xC000, fun f => .rnd f.x f.nn⟩,
   ⟨"DRW", 0xF000, 0xD000, fun f => .drw f.x f.y f.n⟩,
   ⟨"SKP", 0xF0FF, 0xE09E, fun f => .skp f.x⟩,
   ⟨"SKNP", 0xF0FF, 0xE0A1, fun f => .sknp f.x⟩]

/-- The rows of R86 whose top nibble is F. -/
def rowsFifteen : List Row :=
  [⟨"LD_VX_DT", 0xF0FF, 0xF007, fun f => .ldVxDt f.x⟩,
   ⟨"LD_VX_K", 0xF0FF, 0xF00A, fun f => .ldVxK f.x⟩,
   ⟨"LD_DT_VX", 0xF0FF, 0xF015, fun f => .ldDtVx f.x⟩,
   ⟨"LD_ST_VX", 0xF0FF, 0xF018, fun f => .ldStVx f.x⟩,
   ⟨"ADD_I", 0xF0FF, 0xF01E, fun f => .addI f.x⟩,
   ⟨"LD_F", 0xF0FF, 0xF029, fun f => .ldF f.x⟩,
   ⟨"LD_B", 0xF0FF, 0xF033, fun f => .ldB f.x⟩,
   ⟨"ST_REGS", 0xF0FF, 0xF055, fun f => .stRegs f.x⟩,
   ⟨"LD_REGS", 0xF0FF, 0xF065, fun f => .ldRegs f.x⟩]

/-- The opcode map: the 34 rows of R86. -/
def opcodeMap : List Row := rowsLow ++ rowsEight ++ rowsHigh ++ rowsFifteen

/-- R85: the one row of the map that covers the word, and its instruction; `none` for an unimplemented word (R90). -/
def decodeWord (w : Word) : Option Instr :=
  (opcodeMap.find? (fun r => r.covers w)).map (fun r => r.build (fieldsOf w))

/-- Why bytes hold no instruction. -/
inductive Reject where
  /-- Fewer than two bytes: an instruction is one 16-bit word (R80). -/
  | truncated
  /-- The word matches no row of the opcode map (R90). -/
  | unimplementedOpcode (w : Word)
  deriving DecidableEq, Repr

/-- The instruction at the head of a byte stream, and the bytes after it (R66, R80). -/
def decode : List Byte → Except Reject (Instr × List Byte)
  | [] => .error .truncated
  | [_] => .error .truncated
  | hi :: lo :: rest =>
    match decodeWord (wordOfBytes hi lo) with
    | some i => .ok (i, rest)
    | none => .error (.unimplementedOpcode (wordOfBytes hi lo))

/-- The bytes of a word as memory holds them, lower address first (R66). -/
def bytesOfWord (w : Word) : List Byte := [highByte w, lowByte w]

/-- The instruction word whose bits are `w` in the table's numbering; bits from `nbits` on are 0. -/
def tableWord (nbits w : Nat) : Word := BitVec.ofNat 16 (w % 2 ^ nbits)

/-- What the decoder reads from the word of a row of the opcode table. -/
def decodeTableWord (nbits w : Nat) : Option Instr :=
  match decode (bytesOfWord (tableWord nbits w)) with
  | .ok (i, _) => some i
  | .error _ => none

/-- `X` in its place, bits 11-8 (R81). -/
def placeX (x : Reg) : Word := BitVec.ofNat 16 x.val <<< 8

/-- `Y` in its place, bits 7-4 (R81). -/
def placeY (y : Reg) : Word := BitVec.ofNat 16 y.val <<< 4

/-- `N` in its place, bits 3-0 (R81). -/
def placeN (n : Nat) : Word := (BitVec.ofNat 4 n).setWidth 16

/-- `NN` in its place, bits 7-0 (R81). -/
def placeNN (nn : Byte) : Word := nn.setWidth 16

/-- `NNN` in its place, bits 11-0 (R81). -/
def placeNNN (nnn : Nat) : Word := (BitVec.ofNat 12 nnn).setWidth 16

/-- Format `XNN` (R84). -/
def encodeXNN (op : Word) (x : Reg) (nn : Byte) : Word := op ||| placeX x ||| placeNN nn

/-- Format `XY` (R84). -/
def encodeXY (op : Word) (x y : Reg) : Word := op ||| placeX x ||| placeY y

/-- The word of an instruction (R84, R86). -/
def encode : Instr → Word
  | .cls => 0x00E0
  | .ret => 0x00EE
  | .jp nnn => 0x1000 ||| placeNNN nnn
  | .call nnn => 0x2000 ||| placeNNN nnn
  | .seImm x nn => encodeXNN 0x3000 x nn
  | .sneImm x nn => encodeXNN 0x4000 x nn
  | .seReg x y => encodeXY 0x5000 x y
  | .ldImm x nn => encodeXNN 0x6000 x nn
  | .addImm x nn => encodeXNN 0x7000 x nn
  | .ldReg x y => encodeXY 0x8000 x y
  | .orReg x y => encodeXY 0x8001 x y
  | .andReg x y => encodeXY 0x8002 x y
  | .xorReg x y => encodeXY 0x8003 x y
  | .addReg x y => encodeXY 0x8004 x y
  | .sub x y => encodeXY 0x8005 x y
  | .shr x y => encodeXY 0x8006 x y
  | .subn x y => encodeXY 0x8007 x y
  | .shl x y => encodeXY 0x800E x y
  | .sneReg x y => encodeXY 0x9000 x y
  | .ldI nnn => 0xA000 ||| placeNNN nnn
  | .jpV0 nnn => 0xB000 ||| placeNNN nnn
  | .rnd x nn => encodeXNN 0xC000 x nn
  | .drw x y n => encodeXY 0xD000 x y ||| placeN n
  | .skp x => 0xE09E ||| placeX x
  | .sknp x => 0xE0A1 ||| placeX x
  | .ldVxDt x => 0xF007 ||| placeX x
  | .ldVxK x => 0xF00A ||| placeX x
  | .ldDtVx x => 0xF015 ||| placeX x
  | .ldStVx x => 0xF018 ||| placeX x
  | .addI x => 0xF01E ||| placeX x
  | .ldF x => 0xF029 ||| placeX x
  | .ldB x => 0xF033 ||| placeX x
  | .stRegs x => 0xF055 ||| placeX x
  | .ldRegs x => 0xF065 ||| placeX x

/-- The bytes of an instruction as memory holds them (R66). -/
def encodeBytes (i : Instr) : List Byte := bytesOfWord (encode i)

end Sys2Proof
end

