-- ==== Sys2Proof/Config.lean ====
section
/-! DEFINITION. What is fixed for this hardware (R5), its five parameters (R6 to R10), and the free values. -/

namespace Sys2Proof

/-- What a word that matches no instruction does (R8, R212). -/
inductive UnimplPolicy where
  | skipReport
  | fatal
  deriving DecidableEq, Repr, Inhabited

/-- What a draw does with sprite cells beyond the right or bottom edge (R10, R162). -/
inductive EdgeMode where
  | clip
  | wrap
  deriving DecidableEq, Repr

namespace Config

/-- `MEM_SIZE` (R5). -/
abbrev memSize : Nat := 4096

/-- The highest memory address, 4095 (R60). -/
abbrev lastAddr : Nat := 4095

/-- The highest address a two-byte fetch may start at (R62, R64). -/
abbrev lastFetch : Nat := 4094

/-- `LOAD_BASE`, where a program is loaded and starts (R5). -/
abbrev loadBase : Nat := 0x200

/-- `MAX_PROG`, the most bytes a program may have (R5). -/
abbrev maxProg : Nat := 3584

/-- `DISP_W`, columns of the display (R5). -/
abbrev dispW : Nat := 64

/-- `DISP_H`, rows of the display (R5). -/
abbrev dispH : Nat := 32

/-- `STACK_CAPACITY`: 16 for this hardware (R6; the spec's decision D2). Log entry 3. -/
abbrev stackCapacity : Nat := 16

/-- `DRAW_EDGE_MODE`: clip for this hardware (R10; the spec's decision D10). Log entry 7. -/
def drawEdgeMode : EdgeMode := .clip

/-- `UNIMPL_POLICY`, left OPEN by the spec (R8, R212): no value can be proved of it. Log entry 5. -/
opaque unimplPolicy : UnimplPolicy

/-- `KEYWAIT_SELECT`, left OPEN by the spec (R9): which key this engine would take, as a function of the set of
pressed keys. It counts only where it names a pressed key (`selectKey`). Log entry 6. -/
opaque keywaitSelect : Word → Reg

/-- The free values of `random-byte()`: the byte of the `n`-th free draw (R41, R131). Log entry 8. -/
opaque randomByte : Nat → Byte

/-- The glyphs 0 to 7 of the default font (R31). PRESUMED (general knowledge, so says the spec), log entry 4. -/
def fontLow : List Byte :=
  [0xF0, 0x90, 0x90, 0x90, 0xF0] ++ [0x20, 0x60, 0x20, 0x20, 0x70] ++
  [0xF0, 0x10, 0xF0, 0x80, 0xF0] ++ [0xF0, 0x10, 0xF0, 0x10, 0xF0] ++
  [0x90, 0x90, 0xF0, 0x10, 0x10] ++ [0xF0, 0x80, 0xF0, 0x10, 0xF0] ++
  [0xF0, 0x80, 0xF0, 0x90, 0xF0] ++ [0xF0, 0x10, 0x20, 0x40, 0x40]

/-- The glyphs 8 to F of the default font (R31). PRESUMED, log entry 4. -/
def fontHigh : List Byte :=
  [0xF0, 0x90, 0xF0, 0x90, 0xF0] ++ [0xF0, 0x90, 0xF0, 0x10, 0xF0] ++
  [0xF0, 0x90, 0xF0, 0x90, 0x90] ++ [0xE0, 0x90, 0xE0, 0x90, 0xE0] ++
  [0xF0, 0x80, 0x80, 0x80, 0xF0] ++ [0xE0, 0x90, 0x90, 0x90, 0xE0] ++
  [0xF0, 0x80, 0xF0, 0x80, 0xF0] ++ [0xF0, 0x80, 0xF0, 0x80, 0x80]

/-- `FONT`: the 80 bytes reset writes at addresses 0 to 79 (R7, R31, R241). -/
def font : List Byte := fontLow ++ fontHigh

end Config
end Sys2Proof
end

