-- ==== Sys2Proof/Machine/State.lean ====
section
/-! DEFINITION. The state of the machine (R20 to R36), the reasons a step can stop, and the state after RESET. -/

namespace Sys2Proof.Machine

/-- The run states (R32). -/
inductive RunState where
  | running
  | paused
  | halted
  deriving DecidableEq, Repr

/-- The fault codes of the latch `FAULT` (R33, R204). -/
inductive FaultCode where
  /-- Code 0: no fault latched. -/
  | none
  /-- Code 1: a call with a full stack (R209). -/
  | stackOverflow
  /-- Code 2: a return with an empty stack (R210). -/
  | stackUnderflow
  /-- Code 3: a word that matches no instruction, under the policy `fatal` (R212). -/
  | unimplementedOpcode
  /-- Code 4: a fetch that leaves memory (R206). -/
  | fetchOutOfRange
  /-- Code 5: a data access that leaves memory (R207). -/
  | dataOutOfRange
  /-- Code 6: a key index above 15 (R208). -/
  | keyIndexOutOfRange
  deriving DecidableEq, Repr

/-- Memory: the cells whose byte differs from the contents after reset, addresses strictly rising. -/
abbrev Memory := List Host.Cell

/-- The state of the core. -/
structure State where
  /-- `V[0]` to `V[15]` (R20). -/
  v : Vector Byte 16
  /-- `I`, the index register (R26). -/
  i : Word
  /-- `PC`, the program counter (R24). -/
  pc : Word
  /-- `SP`, how many entries of the call stack are valid (R27). -/
  sp : Nat
  /-- `STK`, the call stack (R27). -/
  stk : Vector Word Config.stackCapacity
  /-- `DT`, the delay timer (R28). -/
  dt : Byte
  /-- `ST`, the sound timer (R28). -/
  st : Byte
  /-- `KEYS`: bit `k` is key `k`, 1 for pressed (R29). -/
  keys : Word
  /-- `DISP`: one entry per row, bit `x` of row `y` is the cell `DISP[y][x]` (R30). -/
  disp : Vector (BitVec Config.dispW) Config.dispH
  /-- `MEM` (R31, R60). -/
  mem : Memory
  /-- `RUN_STATE` (R32). -/
  runState : RunState
  /-- `FAULT` (R33). -/
  fault : FaultCode
  /-- `FAULT_PC` (R33). -/
  faultPc : Word
  /-- `FAULT_WORD` (R33). -/
  faultWord : Word
  /-- The MODEL's own: the byte given with the `STEP(rnd)` under way (R41); `none` between events. Log entry 8. -/
  rndIn : Option Byte
  /-- The MODEL's own: how many free random bytes have been drawn (R131). Log entry 8. -/
  draws : Nat
  deriving DecidableEq, Repr

/-- The reasons a step could stop with no next state. There are none: every fault of the spec is LATCHED, its effect
on the state is given (R205), and so it is a next state (log entry 1). -/
inductive Fault where
  deriving DecidableEq, Repr

/-- The reasons a step could be refused. -/
inductive Refusal where
  /-- An instruction without a meaning. Raised by no arm of `exec`: every row of the opcode map has its meaning. Safe. -/
  | notModelled (mnemonic : String)
  deriving DecidableEq, Repr

/-- What an instruction's meaning answers. -/
abbrev Result := Host.Outcome State Fault Refusal

/-- The state after RESET (R36, R240, R241): memory lists nothing, so it reads as the font and zeros
(`Memory.resetByte`); the run state is Paused (the spec's decision D20, log entry 10). The last two fields are the
MODEL's own (log entry 8). -/
def State.reset : State where
  v := Vector.replicate 16 0
  i := 0
  pc := 0x200
  sp := 0
  stk := Vector.replicate Config.stackCapacity 0
  dt := 0
  st := 0
  keys := 0
  disp := Vector.replicate Config.dispH 0
  mem := []
  runState := .paused
  fault := .none
  faultPc := 0
  faultWord := 0
  rndIn := none
  draws := 0

end Sys2Proof.Machine
end

