-- ==== Sys2Proof/Machine/Ops.lean ====
section
/-! DEFINITION. The named operations over memory, registers, stack and program counter, the fetch, and taking a
fault: the one shared operation every fault of the spec goes through. -/

namespace Sys2Proof.Machine

/-! ### Memory (R60 to R63) -/

/-- What an address reads as after RESET: the font at 0 to 79, zero above (R36, R241). -/
def Memory.resetByte (a : Nat) : Byte := Config.font.getD a 0

/-- The byte listed for an address, if one is. -/
def Memory.lookup (a : Nat) : Memory → Option Byte
  | [] => none
  | (k, c) :: rest => if k = a then some c else lookup a rest

/-- `MemRead(a, 1)` (R62): the listed byte, or the contents after reset. -/
def Memory.read (m : Memory) (a : Nat) : Byte := (Memory.lookup a m).getD (Memory.resetByte a)

/-- List a byte for an address, in address order. -/
def Memory.insert (a : Nat) (b : Byte) : Memory → Memory
  | [] => [(a, b)]
  | (k, c) :: rest =>
    if a < k then (a, b) :: (k, c) :: rest
    else if a = k then (a, b) :: rest
    else (k, c) :: insert a b rest

/-- List no byte for an address. -/
def Memory.erase (a : Nat) : Memory → Memory
  | [] => []
  | (k, c) :: rest => if k = a then rest else (k, c) :: erase a rest

/-- `MemWrite(a, 1, b)` (R63), keeping the canonical form. An address above 4095 names nothing (R60): no instruction
writes there, its range check comes first (R65). -/
def Memory.write (m : Memory) (a : Nat) (b : Byte) : Memory :=
  if a < Config.memSize then
    if b = Memory.resetByte a then Memory.erase a m else Memory.insert a b m
  else m

/-- Write consecutive bytes in ascending address order (R66). -/
def Memory.writeList (m : Memory) (a : Nat) : List Byte → Memory
  | [] => m
  | b :: bs => Memory.writeList (Memory.write m a b) (a + 1) bs

/-- Read `n` consecutive bytes in ascending address order (R66). -/
def Memory.readList (m : Memory) (a : Nat) : Nat → List Byte
  | 0 => []
  | n + 1 => Memory.read m a :: Memory.readList m (a + 1) n

/-- Canonical form from address `lo` on: addresses strictly rising and inside memory, no byte that an unlisted address
reads as. -/
def Memory.wfFrom (lo : Nat) : Memory → Bool
  | [] => true
  | (a, b) :: rest =>
    decide (lo ≤ a) && decide (a < Config.memSize) && decide (b ≠ Memory.resetByte a) && wfFrom (a + 1) rest

/-- The canonical form of memory. -/
def Memory.wf (m : Memory) : Bool := Memory.wfFrom 0 m

/-- `MEM[a]`. -/
def State.read (s : State) (a : Nat) : Byte := Memory.read s.mem a

/-! ### Registers (R20 to R23) -/

/-- `VF`, the register some instructions use as their flag (R21). -/
abbrev VF : Reg := 15

/-- `V[x]`. -/
def State.reg (s : State) (x : Reg) : Byte := s.v[x.val]

/-- `V[x] <- b`. -/
def State.setReg (s : State) (x : Reg) (b : Byte) : State := { s with v := s.v.set x.val b }

/-- `V[x] <- b`, then the flag to `VF`, written last (R23). -/
def State.setRegFlag (s : State) (x : Reg) (b flag : Byte) : State := (s.setReg x b).setReg VF flag

/-! ### Program counter (R24, R25) -/

/-- The advance of the fetch, `PC <- PC + 2`. -/
def State.advance (s : State) : State := { s with pc := s.pc + 2 }

/-- `PC <- target`. -/
def State.setPc (s : State) (target : Word) : State := { s with pc := target }

/-- A taken skip adds 2 to the advanced program counter (R25, R108). -/
def State.skipIf (s : State) (c : Bool) : State := if c then s.setPc (s.pc + 2) else s

/-! ### Call stack (R27) -/

/-- `STK[k]`. -/
def State.stack (s : State) (k : Nat) : Word := s.stk[k]?.getD 0

/-- Push, when there is room: the entry goes to `STK[SP]`, then `SP` grows. -/
def State.push (s : State) (w : Word) : State := { s with stk := s.stk.setIfInBounds s.sp w, sp := s.sp + 1 }

/-- Pop, when there is an entry: `SP` falls; the entry stays in `STK`. -/
def State.pop (s : State) : State := { s with sp := s.sp - 1 }

/-! ### Fetch and gate (R64, R200, R225) -/

/-- The gate of `STEP` and `TICK` (R225). -/
def State.active (s : State) : Bool := decide (s.runState = .running) && decide (s.fault = .none)

/-- The fetch address lets two bytes be read (R64). -/
def State.fetchable (s : State) : Bool := decide (s.pc.toNat ≤ Config.lastFetch)

/-- `MemRead(a, 2)`: the byte at the lower address is the more significant (R62, R66). -/
def Memory.readWord (m : Memory) (a : Nat) : Word := wordOfBytes (Memory.read m a) (Memory.read m (a + 1))

/-- The word at the program counter. -/
def State.fetchWord (s : State) : Word := Memory.readWord s.mem s.pc.toNat

/-! ### Taking a fault (R33, R205) -/

/-- The fault latch is written and nothing else. -/
def State.latch (s : State) (code : FaultCode) (a w : Word) : State :=
  { s with fault := code, faultPc := a, faultWord := w }

/-- `raise`, in the execute phase: `FAULT_PC` is the address of the faulting instruction, which the advanced program
counter is two bytes after, and `FAULT_WORD` is its word (R205). Log entries 1 and 2. -/
def raise (code : FaultCode) (w : Word) (s : State) : Result := .next (s.latch code (s.pc - 2) w)

/-- `raise FetchOutOfRange`: the program counter has not been advanced, and there is no word (R205, R206). -/
def raiseFetch (s : State) : Result := .next (s.latch .fetchOutOfRange s.pc 0)

/-- A word that matches no instruction, after the advance (R212): skipped, or a fault. Log entry 5. -/
def unimplemented (w : Word) (s : State) : Result :=
  match Config.unimplPolicy with
  | .skipReport => .next s
  | .fatal => raise .unimplementedOpcode w s

/-- The fault codes' numbers (R204). -/
def FaultCode.number : FaultCode → Nat
  | .none => 0
  | .stackOverflow => 1
  | .stackUnderflow => 2
  | .unimplementedOpcode => 3
  | .fetchOutOfRange => 4
  | .dataOutOfRange => 5
  | .keyIndexOutOfRange => 6

/-! ### The random byte (R41, R131) -/

/-- The byte `random-byte()` returns: the one the host gave with this step, or a free value. Log entry 8. -/
def State.drawnByte (s : State) : Byte :=
  match s.rndIn with
  | some b => b
  | none => Config.randomByte s.draws

/-- The byte has been drawn: a free one is not drawn again. -/
def State.afterDraw (s : State) : State :=
  match s.rndIn with
  | some _ => s
  | none => { s with draws := s.draws + 1 }

end Sys2Proof.Machine
end

