-- ==== Sys2Proof/Machine/Flags.lean ====
section
/-! DEFINITION. The flag computations (R135): what the flag-writing instructions leave in `VF`. -/

namespace Sys2Proof.Machine

/-- A flag as a register holds it: 0 or 1 (R137). -/
def flagByte (c : Bool) : Byte := if c then 1 else 0

/-- Carry: the unwrapped sum exceeds 255 (R126, R135). -/
def carry (p q : Byte) : Byte := flagByte (decide (p.toNat + q.toNat > 255))

/-- Not borrow: the minuend is at least the subtrahend (R127, R135). -/
def notBorrow (p q : Byte) : Byte := flagByte (decide (p.toNat ≥ q.toNat))

/-- The bit a right shift shifts out (R128). -/
def shiftedOutRight (p : Byte) : Byte := flagByte (p.getLsbD 0)

/-- The bit a left shift shifts out (R130). -/
def shiftedOutLeft (p : Byte) : Byte := flagByte (p.getLsbD 7)

end Sys2Proof.Machine
end

