-- ==== Sys2Proof/Machine/Operands.lean ====
section
/-! DEFINITION. The operand forms: the address field, the one data addressing mode (R146), the register block of FX55
and FX65, and the keypad as an instruction sees it (R174, R175). -/

namespace Sys2Proof.Machine

/-- `zext_16(NNN)` (R83). -/
def target (nnn : Nat) : Word := BitVec.ofNat 16 nnn

/-- `zext_16(v)` of a byte (R12). -/
def zext (b : Byte) : Word := b.setWidth 16

/-- R65: an access of the `n` bytes `I .. I+n-1` stays in memory. The sum is over the natural numbers: no wrap. An
access of no bytes checks nothing. -/
def State.dataInRange (s : State) (n : Nat) : Bool := n == 0 || decide (s.i.toNat + n - 1 ≤ Config.lastAddr)

/-- The bytes of the block `V[0] .. V[x]`, in order (R144). -/
def State.block (s : State) (x : Reg) : List Byte := s.v.toList.take (x.val + 1)

/-- Load consecutive registers from the `k`-th on (R145). -/
def loadBlock (v : Vector Byte 16) (k : Nat) : List Byte → Vector Byte 16
  | [] => v
  | b :: bs => loadBlock (v.setIfInBounds k b) (k + 1) bs

/-- The decimal digits of a byte: hundreds, tens, ones (R143). -/
def digits (b : Byte) : List Byte :=
  [BitVec.ofNat 8 (b.toNat / 100), BitVec.ofNat 8 (b.toNat / 10 % 10), BitVec.ofNat 8 (b.toNat % 10)]

/-- `KEYS[k] = 1` (R29). -/
def State.pressed (s : State) (k : Nat) : Bool := s.keys.getLsbD k

/-- The keys `0 .. 15` have indices a byte can name (R174). -/
def keyIndexOk (b : Byte) : Bool := decide (b.toNat ≤ 15)

/-- The pressed keys in ascending order (R172). -/
def State.pressedKeys (s : State) : List Reg := (List.finRange 16).filter (fun k => s.pressed k.val)

/-- `KEYWAIT_SELECT` (R9, R172): `none` when no key is pressed; the one pressed key; among several the engine's own
choice, which is left open. Log entry 6. -/
def selectKey (s : State) : Option Reg :=
  match s.pressedKeys with
  | [] => none
  | [k] => some k
  | k :: ks => if Config.keywaitSelect s.keys ∈ k :: ks then some (Config.keywaitSelect s.keys) else some k

end Sys2Proof.Machine
end

