-- ==== Sys2Proof/Machine/Control.lean ====
section
/-! DEFINITION. Control transfer (R100 to R107). The program counter has been advanced when a meaning starts (R24). -/

namespace Sys2Proof.Machine

/-- `00EE` (R100): the address popped from the stack, or `StackUnderflow` (R210). -/
def execRet (s : State) : Result :=
  if s.sp = 0 then raise .stackUnderflow (encode .ret) s else .next (s.pop.setPc (s.stack (s.sp - 1)))

/-- `1NNN` (R101). -/
def execJp (nnn : Nat) (s : State) : Result := .next (s.setPc (target nnn))

/-- `2NNN` (R102): the advanced program counter is pushed, or `StackOverflow` (R209). -/
def execCall (nnn : Nat) (s : State) : Result :=
  if Config.stackCapacity ≤ s.sp then raise .stackOverflow (encode (.call nnn)) s
  else .next ((s.push s.pc).setPc (target nnn))

/-- `BNNN` (R103): the sum is not reduced to 12 bits. -/
def execJpV0 (nnn : Nat) (s : State) : Result := .next (s.setPc (zext (s.reg 0) + target nnn))

/-- `3XNN` (R104). -/
def execSeImm (x : Reg) (nn : Byte) (s : State) : Result := .next (s.skipIf (decide (s.reg x = nn)))

/-- `4XNN` (R105). -/
def execSneImm (x : Reg) (nn : Byte) (s : State) : Result := .next (s.skipIf (decide (s.reg x ≠ nn)))

/-- `5XY0` (R106). -/
def execSeReg (x y : Reg) (s : State) : Result := .next (s.skipIf (decide (s.reg x = s.reg y)))

/-- `9XY0` (R107). -/
def execSneReg (x y : Reg) (s : State) : Result := .next (s.skipIf (decide (s.reg x ≠ s.reg y)))

end Sys2Proof.Machine
end

