-- ==== Sys2Proof/Machine/Display.lean ====
section
/-! DEFINITION. The display buffer, the draw with its collision detector, and the two display instructions
(R160 to R166). -/

namespace Sys2Proof.Machine

/-- The display buffer. -/
abbrev Disp := Vector (BitVec Config.dispW) Config.dispH

/-- `DISP[y][x]`, row `y`, column `x` (R30). -/
def Disp.cell (d : Disp) (y x : Nat) : Bool := (d[y]?.getD 0).getLsbD x

/-- XOR a set sprite bit into the cell `DISP[y][x]` (R161). -/
def Disp.flip (d : Disp) (y x : Nat) : Disp := d.setIfInBounds y ((d[y]?.getD 0) ^^^ BitVec.twoPow Config.dispW x)

/-- `DISP[y][x]` of a state: the display port (R45). -/
def State.cell (s : State) (y x : Nat) : Bool := Disp.cell s.disp y x

/-- The blank display (R160). -/
def blankDisp : Disp := Vector.replicate Config.dispH 0

/-- The display under a draw, with its collision detector (R164). -/
structure Canvas where
  disp : Disp
  coll : Bool
  deriving DecidableEq, Repr

/-- XOR one set sprite bit; a cell that was set and becomes unset is a collision (R164). -/
def Canvas.flip (c : Canvas) (y x : Nat) : Canvas := ⟨Disp.flip c.disp y x, c.coll || Disp.cell c.disp y x⟩

/-- One set sprite bit at row `y` and column `x` counted past the edges: cut off, or wrapped round (R162). -/
def Canvas.plot (mode : EdgeMode) (c : Canvas) (y x : Nat) : Canvas :=
  match mode with
  | .clip => if y < Config.dispH ∧ x < Config.dispW then c.flip y x else c
  | .wrap => c.flip (y % Config.dispH) (x % Config.dispW)

/-- One sprite row: bit `7 - c` of the byte lands on column `x0 + c` (R165). -/
def Canvas.drawRow (mode : EdgeMode) (y x0 : Nat) (b : Byte) (c : Canvas) : Canvas :=
  (List.range 8).foldl (fun acc k => if b.getLsbD (7 - k) then Canvas.plot mode acc y (x0 + k) else acc) c

/-- The sprite's rows, going downward from row `y` (R165). -/
def Canvas.drawRows (mode : EdgeMode) (x0 : Nat) : Nat → List Byte → Canvas → Canvas
  | _, [], c => c
  | y, b :: bs, c => Canvas.drawRows mode x0 (y + 1) bs (Canvas.drawRow mode y x0 b c)

/-- The column and the row a draw starts at (R162). -/
def State.startColumn (s : State) (x : Reg) : Nat := (s.reg x).toNat % Config.dispW

/-- The row a draw starts at (R162). -/
def State.startRow (s : State) (y : Reg) : Nat := (s.reg y).toNat % Config.dispH

/-- The display and the collision a draw leaves, in either edge mode (R161, R162). -/
def State.drawn (mode : EdgeMode) (s : State) (x y : Reg) (n : Nat) : Canvas :=
  Canvas.drawRows mode (s.startColumn x) (s.startRow y) (Memory.readList s.mem s.i.toNat n) ⟨s.disp, false⟩

/-- A draw in a given edge mode, or `DataOutOfRange` (R161, R207). `VF` is written last. -/
def drawSprite (mode : EdgeMode) (x y : Reg) (n : Nat) (s : State) : Result :=
  if s.dataInRange n then
    .next ({ s with disp := (s.drawn mode x y n).disp }.setReg VF (flagByte (s.drawn mode x y n).coll))
  else raise .dataOutOfRange (encode (.drw x y n)) s

/-- `00E0` (R160). -/
def execCls (s : State) : Result := .next { s with disp := blankDisp }

/-- `DXYN` (R161), in this hardware's edge mode. -/
def execDrw (x y : Reg) (n : Nat) (s : State) : Result := drawSprite Config.drawEdgeMode x y n s

end Sys2Proof.Machine
end

