-- ==== Sys2Proof/Machine/IndexMemory.lean ====
section
/-! DEFINITION. Index register and memory transfer (R140 to R146). -/

namespace Sys2Proof.Machine

/-- `ANNN` (R140). -/
def execLdI (nnn : Nat) (s : State) : Result := .next { s with i := target nnn }

/-- `FX1E` (R141): modulo 65536, no flag. -/
def execAddI (x : Reg) (s : State) : Result := .next { s with i := s.i + zext (s.reg x) }

/-- `FX29` (R142): the whole byte is multiplied. -/
def execLdF (x : Reg) (s : State) : Result := .next { s with i := zext (s.reg x) * 5 }

/-- `FX33` (R143): three digits in ascending address order, or `DataOutOfRange` (R207). -/
def execLdB (x : Reg) (s : State) : Result :=
  if s.dataInRange 3 then .next { s with mem := Memory.writeList s.mem s.i.toNat (digits (s.reg x)) }
  else raise .dataOutOfRange (encode (.ldB x)) s

/-- `FX55` (R144): `I` is not modified. -/
def execStRegs (x : Reg) (s : State) : Result :=
  if s.dataInRange (x.val + 1) then .next { s with mem := Memory.writeList s.mem s.i.toNat (s.block x) }
  else raise .dataOutOfRange (encode (.stRegs x)) s

/-- `FX65` (R145): `I` is not modified. -/
def execLdRegs (x : Reg) (s : State) : Result :=
  if s.dataInRange (x.val + 1) then
    .next { s with v := loadBlock s.v 0 (Memory.readList s.mem s.i.toNat (x.val + 1)) }
  else raise .dataOutOfRange (encode (.ldRegs x)) s

end Sys2Proof.Machine
end

