-- ==== Sys2Proof/Machine/KeypadTimers.lean ====
section
/-! DEFINITION. Keypad and timer instructions (R170 to R178). -/

namespace Sys2Proof.Machine

/-- `EX9E` (R170): `KeyIndexOutOfRange` on an index above 15 (R174, R208). -/
def execSkp (x : Reg) (s : State) : Result :=
  if keyIndexOk (s.reg x) then .next (s.skipIf (s.pressed (s.reg x).toNat))
  else raise .keyIndexOutOfRange (encode (.skp x)) s

/-- `EXA1` (R171). -/
def execSknp (x : Reg) (s : State) : Result :=
  if keyIndexOk (s.reg x) then .next (s.skipIf (!s.pressed (s.reg x).toNat))
  else raise .keyIndexOutOfRange (encode (.sknp x)) s

/-- `FX0A` (R172): with no key pressed the program counter goes back to the instruction itself. -/
def execLdVxK (x : Reg) (s : State) : Result :=
  match selectKey s with
  | none => .next (s.setPc (s.pc - 2))
  | some k => .next (s.setReg x (BitVec.ofNat 8 k.val))

/-- `FX07` (R176). -/
def execLdVxDt (x : Reg) (s : State) : Result := .next (s.setReg x s.dt)

/-- `FX15` (R177). -/
def execLdDtVx (x : Reg) (s : State) : Result := .next { s with dt := s.reg x }

/-- `FX18` (R178); the output `tone` is `toneOf`. -/
def execLdStVx (x : Reg) (s : State) : Result := .next { s with st := s.reg x }

end Sys2Proof.Machine
end

