-- ==== Sys2Proof/Machine/Step.lean ====
section
/-! DEFINITION. One cycle of the engine (R200), and the state in which it runs a given word. -/

namespace Sys2Proof.Machine

/-- The event `STEP` (R200): gate, fetch, advance, match, execute. An ignored step leaves the state as it is (R225). -/
def step (s : State) : Host.Outcome State Fault Refusal :=
  if s.active then
    if s.fetchable then
      match decodeWord s.fetchWord with
      | some i => exec i s.advance
      | none => unimplemented s.fetchWord s.advance
    else raiseFetch s
  else .next s

/-- The machine with an instruction word stored where the next step fetches it, and able to step: what a `LOAD` of
that word does to the run state and the fault latch (R242). A program counter that no fetch can use goes back to the
entry point. Log entry 10. -/
def State.withFetchWord (s : State) (nbits w : Nat) : State :=
  let pc := if s.fetchable then s.pc else BitVec.ofNat 16 Config.loadBase
  { s with
    pc := pc
    mem := Memory.writeList s.mem pc.toNat (bytesOfWord (tableWord nbits w))
    runState := .running
    fault := .none
    faultPc := 0
    faultWord := 0 }

end Sys2Proof.Machine
end

