-- ==== Sys2Proof/Machine/Events.lean ====
section
/-! DEFINITION. The host's six events (R40 to R44), their results, and the read-only ports (R45 to R48). -/

namespace Sys2Proof.Machine

/-! ### The result of a step (R201, R34) -/

/-- The status of a step (R201). -/
inductive Status where
  | ok
  | unimpl (w : Word)
  | fault (code : FaultCode)
  | ignored
  deriving DecidableEq, Repr

/-- What a step returns (R14, R201). -/
structure CycleResult where
  status : Status
  redraw : Bool
  tone : Bool
  deriving DecidableEq, Repr

/-- `redraw` of an instruction that completes: DXYN alone sets it (R163). -/
def redrawOf (i : Instr) : Bool :=
  match i with
  | .drw _ _ _ => true
  | _ => false

/-- `tone` of an instruction that completes: FX18 writing a nonzero value (R178). -/
def toneOf (i : Instr) (s : State) : Bool :=
  match i with
  | .ldStVx x => decide (s.reg x ≠ 0)
  | _ => false

/-- A result with both flags 0 (R201). -/
def quiet (st : Status) : CycleResult := ⟨st, false, false⟩

/-- The status of a step that fetched a word matching no instruction (R212). -/
def unimplementedStatus (w : Word) : Status :=
  match Config.unimplPolicy with
  | .skipReport => .unimpl w
  | .fatal => .fault .unimplementedOpcode

/-- The result of the execute phase: a latched fault, or `ok` with the instruction's two flags. -/
def execResult (i : Instr) (s : State) : CycleResult :=
  match exec i s with
  | .next t => if t.fault = .none then ⟨.ok, redrawOf i, toneOf i s⟩ else quiet (.fault t.fault)
  | .fault _ => quiet .ignored
  | .refused _ => quiet .ignored

/-- What `STEP` returns from a state (R200, R201). -/
def cycleResult (s : State) : CycleResult :=
  if s.active then
    if s.fetchable then
      match decodeWord s.fetchWord with
      | some i => execResult i s.advance
      | none => quiet (unimplementedStatus s.fetchWord)
    else quiet (.fault .fetchOutOfRange)
  else quiet .ignored

/-- `STEP(rnd)`: a step in which the random byte is `rnd`. The byte is an input and leaves no trace (R35, R41). -/
def stepEvent (rnd : Byte) (s : State) : Host.Outcome State Fault Refusal :=
  match step { s with rndIn := some rnd } with
  | .next t => .next { t with rndIn := s.rndIn }
  | .fault f => .fault f
  | .refused r => .refused r

/-! ### RESET and LOAD (R240 to R243) -/

/-- The event `RESET` (R240). It leaves Paused, and nothing of the state remembers that no program has been loaded
(log entry 23). The free bytes drawn so far stay drawn, so that a later draw is a fresh one (R131). -/
def resetEvent (s : State) : State := { State.reset with draws := s.draws }

/-- What `LOAD` returns (R211, R242). -/
inductive LoadResult where
  | ok
  | capacityError
  deriving DecidableEq, Repr

/-- A program fits (R211). -/
def programFits (bytes : List Byte) : Bool := decide (bytes.length ≤ Config.maxProg)

/-- The event `LOAD(bytes)` (R242); an oversized program leaves the state of a bare `RESET` (R243). -/
def loadEvent (bytes : List Byte) (s : State) : State :=
  if programFits bytes then
    { resetEvent s with
      mem := Memory.writeList (resetEvent s).mem Config.loadBase bytes
      runState := .running }
  else resetEvent s

/-- The result of `LOAD(bytes)`. -/
def loadResult (bytes : List Byte) : LoadResult := if programFits bytes then .ok else .capacityError

/-! ### TICK (R42, R220) -/

/-- A timer counts down and stays at 0. -/
def countDown (t : Byte) : Byte := if t = 0 then 0 else t - 1

/-- The event `TICK` (R220); ignored when the gate is shut (R225). -/
def tick (s : State) : State :=
  if s.active then { s with dt := countDown s.dt, st := countDown s.st } else s

/-- What a tick returns (R42). -/
structure TickResult where
  soundOn : Bool
  toneStop : Bool
  deriving DecidableEq, Repr

/-- The sound port: the level `sound_on` (R46). -/
def State.soundOn (s : State) : Bool := decide (s.st ≠ 0)

/-- The result of `TICK` from a state (R220). -/
def tickResult (s : State) : TickResult := ⟨(tick s).soundOn, s.active && decide (s.st = 1)⟩

/-! ### SET_KEYS and SET_RUN_STATE (R43, R44) -/

/-- The event `SET_KEYS(k)` (R43). -/
def setKeys (k : Word) (s : State) : State := { s with keys := k }

/-- The event `SET_RUN_STATE(r)` (R44): ignored in Halted. DESIGN CHOICE: in Paused it is taken also where no program
has been loaded since the last `RESET`, so that the next step runs the word at 0x200 (log entry 23). -/
def setRunState (r : RunState) (s : State) : State := if s.runState = .halted then s else { s with runState := r }

/-! ### The ports (R45 to R48) -/

/-- `halt_request` (R47). -/
def State.haltRequest (s : State) : Bool := decide (s.fault ≠ .none)

/-- The fault port: the code's number, the address and the word (R47, R204). -/
def State.faultPort (s : State) : Nat × Word × Word := (s.fault.number, s.faultPc, s.faultWord)

/-- The run state's suggested encoding (R32), as the status port (R48) would show it. -/
def RunState.number : RunState → Nat
  | .running => 0
  | .paused => 1
  | .halted => 2

/-- The display port by linear index, row-major (R30, R45). -/
def State.displayPort (s : State) (k : Nat) : Bool := s.cell (k / Config.dispW) (k % Config.dispW)

/-! ### All events -/

/-- The host's events (R40). -/
inductive Event where
  | reset
  | load (bytes : List Byte)
  | step (rnd : Byte)
  | tick
  | setKeys (k : Word)
  | setRunState (r : RunState)
  deriving DecidableEq, Repr

/-- What an event returns. -/
inductive EventResult where
  | silent
  | load (r : LoadResult)
  | cycle (r : CycleResult)
  | tick (r : TickResult)
  deriving DecidableEq, Repr

/-- The state after one event (R40). -/
def eventState (e : Event) (s : State) : Host.Outcome State Fault Refusal :=
  match e with
  | .reset => .next (resetEvent s)
  | .load bytes => .next (loadEvent bytes s)
  | .step rnd => stepEvent rnd s
  | .tick => .next (tick s)
  | .setKeys k => .next (setKeys k s)
  | .setRunState r => .next (setRunState r s)

/-- What one event returns. -/
def eventResult (e : Event) (s : State) : EventResult :=
  match e with
  | .reset => .silent
  | .load bytes => .load (loadResult bytes)
  | .step rnd => .cycle (cycleResult { s with rndIn := some rnd })
  | .tick => .tick (tickResult s)
  | .setKeys _ => .silent
  | .setRunState _ => .silent

/-- The state after a sequence of events, in the host's order (R40, R252). -/
def runEvents : List Event → State → Host.Outcome State Fault Refusal
  | [], s => .next s
  | e :: es, s =>
    match eventState e s with
    | .next t => runEvents es t
    | .fault f => .fault f
    | .refused r => .refused r

end Sys2Proof.Machine
end

