-- ==== Sys2Proof/Safety.lean ====
section
/-! DEFINITION. What counts as a safe run, the invariant of the machine, and how a claim says what is unchanged. -/

namespace Sys2Proof.Machine

/-- A fault is latched: the machine never runs on until RESET or LOAD (R33, R205), and such a state is never the end
of a completed run. -/
def State.faulted (s : State) : Prop := s.fault ≠ .none

/-- A run has ended normally: the machine runs, no fault is latched, and the word at `PC` is the self-jump (R258; the
definition is the spec's own, D26). -/
def State.endedNormally (s : State) : Prop :=
  s.runState = .running ∧ s.fault = .none ∧ s.fetchable = true ∧ s.fetchWord = 0x1000 ||| s.pc

/-- `PC` and the call stack hold addresses the engine can produce: at most 4350 and at most 4096 (R25). -/
def State.pcBounded (s : State) : Prop :=
  s.pc.toNat ≤ 4350 ∧ ∀ k, k < Config.stackCapacity → (s.stack k).toNat ≤ 4096

/-- The fault latch is coherent: clear when there is no fault (R33, R36), and a fetch fault records an address that no
fetch can use and no word (R206). -/
def State.latchCoherent (s : State) : Prop :=
  (s.fault = .none → s.faultPc = 0 ∧ s.faultWord = 0) ∧
  (s.fault = .fetchOutOfRange → 4094 < s.faultPc.toNat ∧ s.faultWord = 0)

/-- The invariant of the machine: canonical memory, a stack depth within the capacity (R27), bounded program counter
and stack entries (R25), a coherent fault latch (R33). -/
def State.Inv (s : State) : Prop :=
  Memory.wf s.mem = true ∧ s.sp ≤ Config.stackCapacity ∧ s.pcBounded ∧ s.latchCoherent

/-- The parts of the state, for saying what an instruction leaves unchanged. -/
inductive Part where
  | regs
  | index
  | pc
  | stack
  | delay
  | sound
  | keypad
  | display
  | memory
  | runState
  | latch
  | random
  deriving DecidableEq, Repr

/-- Every part of the state but those listed is the same in `t` as in `s`: registers, cells and bytes one by one. -/
def sameExcept (ps : List Part) (s t : State) : Prop :=
  (Part.regs ∉ ps → ∀ r, t.reg r = s.reg r) ∧
  (Part.index ∉ ps → t.i = s.i) ∧
  (Part.pc ∉ ps → t.pc = s.pc) ∧
  (Part.stack ∉ ps → t.sp = s.sp ∧ ∀ k, t.stack k = s.stack k) ∧
  (Part.delay ∉ ps → t.dt = s.dt) ∧
  (Part.sound ∉ ps → t.st = s.st) ∧
  (Part.keypad ∉ ps → t.keys = s.keys) ∧
  (Part.display ∉ ps → ∀ y x, t.cell y x = s.cell y x) ∧
  (Part.memory ∉ ps → ∀ a, t.read a = s.read a) ∧
  (Part.runState ∉ ps → t.runState = s.runState) ∧
  (Part.latch ∉ ps → t.fault = s.fault ∧ t.faultPc = s.faultPc ∧ t.faultWord = s.faultWord) ∧
  (Part.random ∉ ps → t.rndIn = s.rndIn ∧ t.draws = s.draws)

/-- Every register but those listed is the same in `t` as in `s`. -/
def regsSameExcept (xs : List Reg) (s t : State) : Prop := ∀ r, r ∉ xs → t.reg r = s.reg r

/-- Every byte of memory outside the `n` bytes from `a` on reads as before. -/
def bytesSameOutside (a n : Nat) (s t : State) : Prop := ∀ b, b < a ∨ a + n ≤ b → t.read b = s.read b

/-- An instruction of state `s` (advanced past it) has raised a fault: the latch holds the code, the address two bytes
before the advanced program counter and the instruction's word, and nothing else has changed (R205). -/
def raised (code : FaultCode) (i : Instr) (s t : State) : Prop :=
  t.fault = code ∧ t.faultPc = s.pc - 2 ∧ t.faultWord = encode i ∧ sameExcept [.latch] s t

/-- The instruction completes and its one effect is a byte written to `V[x]` (no flag, no other register). -/
def writesOnly (i : Instr) (s : State) (x : Reg) (b : Byte) : Prop :=
  ∃ t, exec i s = .next t ∧ t.reg x = b ∧ regsSameExcept [x] s t ∧ sameExcept [.regs] s t

/-- The instruction completes and its effect is a byte written to `V[x]` and then a flag to `VF`: where `x` is `VF`
itself, the flag is what stays (R23). -/
def writesWithFlag (i : Instr) (s : State) (x : Reg) (b flag : Byte) : Prop :=
  ∃ t, exec i s = .next t ∧ t.reg VF = flag ∧ (x ≠ VF → t.reg x = b) ∧ regsSameExcept [x, VF] s t ∧
    sameExcept [.regs] s t

/-- The instruction completes and adds 2 to the advanced program counter exactly when `c` holds (R25). -/
def skipsWhen (i : Instr) (s : State) (c : Prop) : Prop :=
  ∃ t, exec i s = .next t ∧ (c → t.pc = s.pc + 2) ∧ (¬c → t.pc = s.pc) ∧ sameExcept [.pc] s t

/-- The registers an instruction may write (R22): `V[X]`, the block of FX65, and `VF` as a flag (R21). -/
def writtenRegs : Instr → List Reg
  | .cls => []
  | .ret => []
  | .jp _ => []
  | .call _ => []
  | .seImm _ _ => []
  | .sneImm _ _ => []
  | .seReg _ _ => []
  | .ldImm x _ => [x]
  | .addImm x _ => [x]
  | .ldReg x _ => [x]
  | .orReg x _ => [x]
  | .andReg x _ => [x]
  | .xorReg x _ => [x]
  | .addReg x _ => [x, VF]
  | .sub x _ => [x, VF]
  | .shr x _ => [x, VF]
  | .subn x _ => [x, VF]
  | .shl x _ => [x, VF]
  | .sneReg _ _ => []
  | .ldI _ => []
  | .jpV0 _ => []
  | .rnd x _ => [x]
  | .drw _ _ _ => [VF]
  | .skp _ => []
  | .sknp _ => []
  | .ldVxDt x => [x]
  | .ldVxK x => [x]
  | .ldDtVx _ => []
  | .ldStVx _ => []
  | .addI _ => []
  | .ldF _ => []
  | .ldB _ => []
  | .stRegs _ => []
  | .ldRegs x => (List.finRange 16).filter (fun k => k ≤ x)

/-- How many bytes from `I` on an instruction accesses (R65): DXYN `N`, FX33 3, FX55 and FX65 `X + 1`. -/
def bytesAccessed : Instr → Nat
  | .drw _ _ n => n
  | .ldB _ => 3
  | .stRegs x => x.val + 1
  | .ldRegs x => x.val + 1
  | _ => 0

/-- The sprite of a draw has a set bit that lands on the cell of row `row` and column `col`, with cells beyond the
right and the bottom edge cut off (R161, R162, R165). -/
def spriteBit (s : State) (x y : Reg) (n row col : Nat) : Bool :=
  let x0 := (s.reg x).toNat % 64
  let y0 := (s.reg y).toNat % 32
  decide (y0 ≤ row) && decide (row < y0 + n) && decide (x0 ≤ col) && decide (col < x0 + 8) &&
    (s.read (s.i.toNat + (row - y0))).getLsbD (7 - (col - x0))

end Sys2Proof.Machine
end

