-- ==== Sys2Proof/Certificates/Slice0/Obligations.lean ====
section
/-! DEFINITION. The statements for the provers. Each docstring names the rule it formalises; where a clause rests on a
decision of the spec or of the model, the docstring names it. -/

open Sys2Proof Sys2Proof.Machine

/-! ### Encoding -/

/-- Words written out from rows of the opcode map decode to the instructions they stand for. -/
def Obligations.WordsOfTheOpcodeMapDecode : Prop :=
  decodeWord 0b0000000011101110 = some .ret ∧
  decodeWord 0b0010_1111_1111_1110 = some (.call 0xFFE) ∧
  decodeWord 0b0101_0001_0010_0000 = some (.seReg 1 2) ∧
  decodeWord 0b1000_0001_0010_0110 = some (.shr 1 2) ∧
  decodeWord 0b1100_0011_0000_1111 = some (.rnd 3 0x0F) ∧
  decodeWord 0b1101_0001_0010_0101 = some (.drw 1 2 5) ∧
  decodeWord 0b1110_0100_1010_0001 = some (.sknp 4) ∧
  decodeWord 0b1111_1000_0110_0101 = some (.ldRegs 8) ∧
  decodeWord 0b0101_0001_0010_0001 = none

/-- R81: the six fields lie at their bit positions, and overlap as the rule says. -/
def Obligations.FieldsLieAtTheirBits : Prop :=
  ∀ w : Word,
    (fieldsOf w).op = w.toNat / 4096 ∧
    (fieldsOf w).x.val = w.toNat / 256 % 16 ∧
    (fieldsOf w).y.val = w.toNat / 16 % 16 ∧
    (fieldsOf w).n = w.toNat % 16 ∧
    (fieldsOf w).nn.toNat = w.toNat % 256 ∧
    (fieldsOf w).nnn = w.toNat % 4096 ∧
    (fieldsOf w).nnn = 256 * (fieldsOf w).x.val + 16 * (fieldsOf w).y.val + (fieldsOf w).n ∧
    (fieldsOf w).nn.toNat = 16 * (fieldsOf w).y.val + (fieldsOf w).n

/-- Every well-formed instruction, encoded and laid out as memory holds it, decodes to itself, whatever bytes follow. -/
def Obligations.EncodedInstructionsDecodeBack : Prop :=
  ∀ (i : Instr) (rest : List Byte), i.wellFormed = true → decode (encodeBytes i ++ rest) = .ok (i, rest)

/-- Every word that decodes is the encoding of its instruction, which is well-formed: no bit of a word is dropped. -/
def Obligations.DecodedWordsEncodeBack : Prop :=
  ∀ (w : Word) (i : Instr), decodeWord w = some i → encode i = w ∧ i.wellFormed = true

/-- R85: no two rows of the opcode map cover the same word. -/
def Obligations.NoTwoOpcodeRowsOverlap : Prop :=
  ∀ (j k : Fin opcodeMap.length) (w : Word), (opcodeMap.get j).covers w = true → (opcodeMap.get k).covers w = true → j = k

/-- R90: the words that match no instruction are exactly the classes (a) to (f). -/
def Obligations.UnimplementedWordsAreTheSixClasses : Prop :=
  ∀ w : Word, decodeWord w = none ↔
    ((fieldsOf w).op = 0 ∧ w ≠ 0x00E0 ∧ w ≠ 0x00EE) ∨
    ((fieldsOf w).op = 5 ∧ (fieldsOf w).n ≠ 0) ∨
    ((fieldsOf w).op = 8 ∧ (fieldsOf w).n ∈ [8, 9, 10, 11, 12, 13, 15]) ∨
    ((fieldsOf w).op = 9 ∧ (fieldsOf w).n ≠ 0) ∨
    ((fieldsOf w).op = 14 ∧ (fieldsOf w).nn ∉ [0x9E, 0xA1]) ∨
    ((fieldsOf w).op = 15 ∧ (fieldsOf w).nn ∉ [0x07, 0x0A, 0x15, 0x18, 0x1E, 0x29, 0x33, 0x55, 0x65])

/-! ### Registers -/

/-- R120, R122, R123, R124, R125: the byte written, and nothing else, `VF` among it. -/
def Obligations.LoadsAndLogicWriteOnlyTheirRegister : Prop :=
  ∀ (s : State) (x y : Reg) (nn : Byte),
    writesOnly (.ldImm x nn) s x nn ∧
    writesOnly (.ldReg x y) s x (s.reg y) ∧
    writesOnly (.orReg x y) s x (s.reg x ||| s.reg y) ∧
    writesOnly (.andReg x y) s x (s.reg x &&& s.reg y) ∧
    writesOnly (.xorReg x y) s x (s.reg x ^^^ s.reg y)

/-- R121: the sum modulo 256, and no flag. -/
def Obligations.AddConstantWrapsWithoutFlag : Prop :=
  ∀ (s : State) (x : Reg) (nn : Byte),
    writesOnly (.addImm x nn) s x (BitVec.ofNat 8 (((s.reg x).toNat + nn.toNat) % 256))

/-- R126: the sum modulo 256, and the carry in `VF`, written last. -/
def Obligations.AddRegistersSetsCarry : Prop :=
  ∀ (s : State) (x y : Reg),
    writesWithFlag (.addReg x y) s x (BitVec.ofNat 8 (((s.reg x).toNat + (s.reg y).toNat) % 256))
      (if (s.reg x).toNat + (s.reg y).toNat > 255 then 1 else 0)

/-- R127, R129: the difference modulo 256, and not-borrow in `VF`, written last. -/
def Obligations.SubtractionsSetNotBorrow : Prop :=
  ∀ (s : State) (x y : Reg),
    writesWithFlag (.sub x y) s x (BitVec.ofNat 8 (((s.reg x).toNat + 256 - (s.reg y).toNat) % 256))
      (if (s.reg y).toNat ≤ (s.reg x).toNat then 1 else 0) ∧
    writesWithFlag (.subn x y) s x (BitVec.ofNat 8 (((s.reg y).toNat + 256 - (s.reg x).toNat) % 256))
      (if (s.reg x).toNat ≤ (s.reg y).toNat then 1 else 0)

/-- R128, R130: one bit shifted out into `VF`, whatever `y` the word holds. -/
def Obligations.ShiftsMoveOneBitIntoFlag : Prop :=
  ∀ (s : State) (x y : Reg),
    writesWithFlag (.shr x y) s x (BitVec.ofNat 8 ((s.reg x).toNat / 2)) (BitVec.ofNat 8 ((s.reg x).toNat % 2)) ∧
    writesWithFlag (.shl x y) s x (BitVec.ofNat 8 (2 * (s.reg x).toNat % 256)) (BitVec.ofNat 8 ((s.reg x).toNat / 128))

/-- A random byte, masked: the byte the host gave with the step, or the next free value (log entry 8), which is then
not drawn again. -/
def Obligations.RandomByteIsMasked : Prop :=
  ∀ (s : State) (x : Reg) (nn : Byte), ∃ (t : State) (r : Byte),
    exec (.rnd x nn) s = .next t ∧ t.reg x = r &&& nn ∧ regsSameExcept [x] s t ∧ sameExcept [.regs, .random] s t ∧
    t.rndIn = s.rndIn ∧
    (∀ b, s.rndIn = some b → r = b ∧ t.draws = s.draws) ∧
    (s.rndIn = none → r = Config.randomByte s.draws ∧ t.draws = s.draws + 1)

/-- After an instruction that writes the flag, without a fault, `VF` is 0 or 1. -/
def Obligations.FlagIsZeroOrOneAfterFlagWriters : Prop :=
  ∀ (s t : State) (i : Instr) (x y : Reg) (n : Nat),
    i ∈ [.addReg x y, .sub x y, .shr x y, .subn x y, .shl x y, .drw x y n] →
    s.fault = .none → exec i s = .next t → t.fault = .none → t.reg VF = 0 ∨ t.reg VF = 1

/-! ### Control transfer -/

/-- R101: the jump. -/
def Obligations.JumpGoesToItsAddress : Prop :=
  ∀ (s : State) (nnn : Nat), (Instr.jp nnn).wellFormed = true →
    ∃ t, exec (.jp nnn) s = .next t ∧ t.pc.toNat = nnn ∧ sameExcept [.pc] s t

/-- The offset jump adds `V[0]`, and the sum is not reduced to 12 bits (the spec's decision D27). -/
def Obligations.OffsetJumpAddsV0 : Prop :=
  ∀ (s : State) (nnn : Nat), (Instr.jpV0 nnn).wellFormed = true →
    ∃ t, exec (.jpV0 nnn) s = .next t ∧ t.pc.toNat = (s.reg 0).toNat + nnn ∧ sameExcept [.pc] s t

/-- R104 to R107: the four compare-and-skip instructions. -/
def Obligations.SkipsCompareAndSkip : Prop :=
  ∀ (s : State) (x y : Reg) (nn : Byte),
    skipsWhen (.seImm x nn) s (s.reg x = nn) ∧
    skipsWhen (.sneImm x nn) s (s.reg x ≠ nn) ∧
    skipsWhen (.seReg x y) s (s.reg x = s.reg y) ∧
    skipsWhen (.sneReg x y) s (s.reg x ≠ s.reg y)

/-- A call with room on the stack (16 entries: the spec's decision D2, log entry 3) pushes the advanced program counter
and goes to its address. -/
def Obligations.CallPushesTheReturnAddress : Prop :=
  ∀ (s : State) (nnn : Nat), (Instr.call nnn).wellFormed = true → s.sp < 16 →
    ∃ t, exec (.call nnn) s = .next t ∧ t.pc.toNat = nnn ∧ t.sp = s.sp + 1 ∧ t.stack s.sp = s.pc ∧
      (∀ k, k ≠ s.sp → t.stack k = s.stack k) ∧ sameExcept [.pc, .stack] s t

/-- A return with an entry on the stack goes to the address popped; the entry stays in the array. -/
def Obligations.ReturnPopsTheReturnAddress : Prop :=
  ∀ s : State, 0 < s.sp →
    ∃ t, exec .ret s = .next t ∧ t.pc = s.stack (s.sp - 1) ∧ t.sp = s.sp - 1 ∧ (∀ k, t.stack k = s.stack k) ∧
      sameExcept [.pc, .stack] s t

/-- A call on a full stack and a return on an empty one are fatal: the fault is latched and nothing else changes (the
latch is the spec's decision D7, log entries 1 and 2; the 16 entries its decision D2, log entry 3). -/
def Obligations.StackFaultsAreFatal : Prop :=
  (∀ (s : State) (nnn : Nat), s.sp = 16 → ∃ t, exec (.call nnn) s = .next t ∧ raised .stackOverflow (.call nnn) s t) ∧
  (∀ s : State, s.sp = 0 → ∃ t, exec .ret s = .next t ∧ raised .stackUnderflow .ret s t)

/-- R109: a call to a return comes back to the instruction after the call, with the stack depth as before. -/
def Obligations.CallThenReturnComesBack : Prop :=
  ∀ (s : State) (nnn : Nat),
    s.runState = .running → s.fault = .none → s.pc.toNat ≤ 4094 → decodeWord s.fetchWord = some (.call nnn) →
    s.sp < 16 → nnn ≤ 4094 → Memory.readWord s.mem nnn = 0x00EE →
    ∃ t u, step s = .next t ∧ step t = .next u ∧ t.pc.toNat = nnn ∧ u.pc = s.pc + 2 ∧ u.sp = s.sp

/-! ### Index register and memory -/

/-- R140: the index register takes the address field. -/
def Obligations.LoadIndexTakesItsAddress : Prop :=
  ∀ (s : State) (nnn : Nat), (Instr.ldI nnn).wellFormed = true →
    ∃ t, exec (.ldI nnn) s = .next t ∧ t.i.toNat = nnn ∧ sameExcept [.index] s t

/-- The index register after an addition, modulo 65536 (decision D21), and after a font selection, where the whole
byte is multiplied (decision D25); no flag. -/
def Obligations.IndexArithmetic : Prop :=
  ∀ (s : State) (x : Reg),
    (∃ t, exec (.addI x) s = .next t ∧ t.i.toNat = (s.i.toNat + (s.reg x).toNat) % 65536 ∧ sameExcept [.index] s t) ∧
    (∃ t, exec (.ldF x) s = .next t ∧ t.i.toNat = (s.reg x).toNat * 5 ∧ sameExcept [.index] s t)

/-- The three decimal digits at `I`, `I+1`, `I+2`, and no other byte of memory. -/
def Obligations.DecimalDigitsAreStored : Prop :=
  ∀ (s : State) (x : Reg), Memory.wf s.mem = true → s.i.toNat + 2 ≤ 4095 →
    ∃ t, exec (.ldB x) s = .next t ∧
      (t.read s.i.toNat).toNat = (s.reg x).toNat / 100 ∧
      (t.read (s.i.toNat + 1)).toNat = (s.reg x).toNat / 10 % 10 ∧
      (t.read (s.i.toNat + 2)).toNat = (s.reg x).toNat % 10 ∧
      bytesSameOutside s.i.toNat 3 s t ∧ sameExcept [.memory] s t

/-- The registers `V[0] .. V[X]` at `I .. I+X`, and no other byte of memory; `I` is not modified. -/
def Obligations.RegisterBlockIsStored : Prop :=
  ∀ (s : State) (x : Reg), Memory.wf s.mem = true → s.i.toNat + x.val ≤ 4095 →
    ∃ t, exec (.stRegs x) s = .next t ∧
      (∀ k : Reg, k ≤ x → t.read (s.i.toNat + k.val) = s.reg k) ∧
      bytesSameOutside s.i.toNat (x.val + 1) s t ∧ sameExcept [.memory] s t

/-- The bytes `I .. I+X` in `V[0] .. V[X]`, and no other register; memory and `I` are not modified. -/
def Obligations.RegisterBlockIsLoaded : Prop :=
  ∀ (s : State) (x : Reg), s.i.toNat + x.val ≤ 4095 →
    ∃ t, exec (.ldRegs x) s = .next t ∧
      (∀ k : Reg, k ≤ x → t.reg k = s.read (s.i.toNat + k.val)) ∧
      (∀ k : Reg, x < k → t.reg k = s.reg k) ∧ sameExcept [.regs] s t

/-- What FX55 stores FX65 loads back, from any state with the same memory and `I` as after the store. -/
def Obligations.StoredBlockLoadsBack : Prop :=
  ∀ (s t u : State) (x : Reg), Memory.wf s.mem = true → s.i.toNat + x.val ≤ 4095 → exec (.stRegs x) s = .next t →
    u.mem = t.mem → u.i = t.i →
    ∃ w, exec (.ldRegs x) u = .next w ∧ ∀ k : Reg, k ≤ x → w.reg k = s.reg k

/-- A data access whose last byte lies above 4095 raises `DataOutOfRange` before any transfer (decisions D6, D7 of the
spec, log entry 1). -/
def Obligations.DataOutOfRangeIsRaised : Prop :=
  ∀ (s : State) (i : Instr), 1 ≤ bytesAccessed i → 4095 < s.i.toNat + bytesAccessed i - 1 →
    ∃ t, exec i s = .next t ∧ raised .dataOutOfRange i s t

/-! ### Display -/

/-- R160: every cell is 0, nothing else changes, a second clear changes nothing; that no `redraw` is reported is the
spec's decision D17. -/
def Obligations.ClearBlanksTheDisplay : Prop :=
  ∀ s : State, ∃ t, exec .cls s = .next t ∧ (∀ y x, t.cell y x = false) ∧ sameExcept [.display] s t ∧
    exec .cls t = .next t ∧ (execResult .cls s).redraw = false

/-- A draw XORs every set sprite bit into its cell, and leaves in `VF` whether a set cell became unset (clipping is the
spec's decision D10, the bit order its decision D11; log entries 7 and 15). -/
def Obligations.DrawXorsTheSprite : Prop :=
  ∀ (s : State) (x y : Reg) (n : Nat), n = 0 ∨ s.i.toNat + n - 1 ≤ 4095 →
    ∃ t, exec (.drw x y n) s = .next t ∧
      (∀ row col, row < 32 → col < 64 → t.cell row col = Bool.xor (s.cell row col) (spriteBit s x y n row col)) ∧
      ((∃ row col, row < 32 ∧ col < 64 ∧ s.cell row col = true ∧ spriteBit s x y n row col = true) → t.reg VF = 1) ∧
      ((∀ row col, row < 32 → col < 64 → s.cell row col = true → spriteBit s x y n row col = false) → t.reg VF = 0) ∧
      regsSameExcept [VF] s t ∧ sameExcept [.regs, .display] s t

/-- The same draw twice leaves the display as it was, in either edge mode. -/
def Obligations.DrawingTwiceRestoresTheDisplay : Prop :=
  ∀ (mode : EdgeMode) (s t : State) (x y : Reg) (n : Nat), x ≠ VF → y ≠ VF → n = 0 ∨ s.i.toNat + n - 1 ≤ 4095 →
    drawSprite mode x y n s = .next t →
    ∃ u, drawSprite mode x y n t = .next u ∧ u.disp = s.disp

/-- On a blank display the first draw of a sprite with a bit inside the display collides with nothing and the second
one collides. Which bits lie inside is what `spriteBit` says: clipping is the spec's decision D10 (log entry 7), the bit
order its decision D11, general knowledge (log entry 15). -/
def Obligations.SecondDrawCollides : Prop :=
  ∀ (s t u : State) (x y : Reg) (n row col : Nat), x ≠ VF → y ≠ VF → n = 0 ∨ s.i.toNat + n - 1 ≤ 4095 →
    (∀ r c, s.cell r c = false) → row < 32 → col < 64 → spriteBit s x y n row col = true →
    exec (.drw x y n) s = .next t → exec (.drw x y n) t = .next u → t.reg VF = 0 ∧ u.reg VF = 1

/-! ### Keypad and timers -/

/-- With a key index up to 15 the two key tests skip on the key's state, and only on it. -/
def Obligations.KeyTestsSkipOnTheirKey : Prop :=
  ∀ (s : State) (x : Reg), (s.reg x).toNat ≤ 15 →
    skipsWhen (.skp x) s (s.keys.getLsbD (s.reg x).toNat = true) ∧
    skipsWhen (.sknp x) s (s.keys.getLsbD (s.reg x).toNat = false)

/-- A key index above 15 is fatal (decisions D13, D7 of the spec; log entries 1 and 13). -/
def Obligations.KeyIndexOutOfRangeIsRaised : Prop :=
  ∀ (s : State) (x : Reg), 15 < (s.reg x).toNat →
    (∃ t, exec (.skp x) s = .next t ∧ raised .keyIndexOutOfRange (.skp x) s t) ∧
    (∃ t, exec (.sknp x) s = .next t ∧ raised .keyIndexOutOfRange (.sknp x) s t)

/-- The key wait: no key pressed, the program counter goes back by 2; some key pressed, the index of a pressed key,
whichever the engine takes when there are several (log entry 6). -/
def Obligations.KeyWaitTakesAPressedKey : Prop :=
  ∀ (s : State) (x : Reg),
    (s.keys = 0 → ∃ t, exec (.ldVxK x) s = .next t ∧ t.pc = s.pc - 2 ∧ sameExcept [.pc] s t) ∧
    (s.keys ≠ 0 → ∃ k : Reg, s.keys.getLsbD k.val = true ∧ writesOnly (.ldVxK x) s x (BitVec.ofNat 8 k.val))

/-- A step that waits for a key leaves the whole state as it is. -/
def Obligations.KeyWaitIsAFixedPointOfTheStep : Prop :=
  ∀ (s : State) (x : Reg), s.pc.toNat ≤ 4094 → decodeWord s.fetchWord = some (.ldVxK x) → s.keys = 0 → step s = .next s

/-- R176, R177: the delay timer is read into a register and written from one, and neither reports `tone`. -/
def Obligations.DelayTimerIsReadAndWritten : Prop :=
  ∀ (s : State) (x : Reg),
    writesOnly (.ldVxDt x) s x s.dt ∧
    (∃ t, exec (.ldDtVx x) s = .next t ∧ t.dt = s.reg x ∧ sameExcept [.delay] s t) ∧
    (execResult (.ldVxDt x) s).tone = false ∧ (execResult (.ldDtVx x) s).tone = false

/-- The sound timer is written, and `tone` reports a nonzero value (decision D16 of the spec). -/
def Obligations.SoundTimerIsWritten : Prop :=
  ∀ (s : State) (x : Reg), s.fault = .none →
    (∃ t, exec (.ldStVx x) s = .next t ∧ t.st = s.reg x ∧ sameExcept [.sound] s t) ∧
    execResult (.ldStVx x) s = ⟨.ok, false, decide (s.reg x ≠ 0)⟩

/-! ### The step -/

/-- A running machine whose bytes at `PC` decode to an instruction runs it, with the program counter advanced by 2
first and nothing else changed. -/
def Obligations.StepRunsTheDecodedInstruction : Prop :=
  ∀ (s : State) (i : Instr), s.runState = .running → s.fault = .none → s.pc.toNat ≤ 4094 →
    decodeWord (s.read s.pc.toNat ++ s.read (s.pc.toNat + 1)) = some i →
    step s = exec i s.advance ∧ s.advance.pc = s.pc + 2 ∧ sameExcept [.pc] s s.advance

/-- A fetch address above 4094 is fatal; the program counter is not advanced (decisions D6, D7; log entry 1). -/
def Obligations.FetchOutOfRangeIsRaised : Prop :=
  ∀ s : State, s.runState = .running → s.fault = .none → 4094 < s.pc.toNat →
    ∃ t, step s = .next t ∧ t.fault = .fetchOutOfRange ∧ t.faultPc = s.pc ∧ t.faultWord = 0 ∧ sameExcept [.latch] s t

/-- A word that matches no instruction is skipped or fatal, as `UNIMPL_POLICY` says (log entry 5). -/
def Obligations.UnimplementedWordFollowsThePolicy : Prop :=
  ∀ s : State, s.runState = .running → s.fault = .none → s.pc.toNat ≤ 4094 → decodeWord s.fetchWord = none →
    ∃ t, step s = .next t ∧ t.pc = s.pc + 2 ∧
      (Config.unimplPolicy = .skipReport →
        sameExcept [.pc] s t ∧ cycleResult s = ⟨.unimpl s.fetchWord, false, false⟩) ∧
      (Config.unimplPolicy = .fatal →
        t.fault = .unimplementedOpcode ∧ t.faultPc = s.pc ∧ t.faultWord = s.fetchWord ∧ sameExcept [.pc, .latch] s t ∧
        cycleResult s = ⟨.fault .unimplementedOpcode, false, false⟩)

/-- A paused, halted or faulted machine ignores STEP and TICK (decision D19 of the spec, log entry 12). -/
def Obligations.ShutGateIgnoresStepAndTick : Prop :=
  ∀ s : State, s.runState ≠ .running ∨ s.fault ≠ .none →
    step s = .next s ∧ tick s = s ∧ cycleResult s = ⟨.ignored, false, false⟩ ∧ tickResult s = ⟨decide (s.st ≠ 0), false⟩

/-- A step always leaves a next state: every fault of the spec is a state with the latch written (log entry 1). -/
def Obligations.EveryStepLeavesANextState : Prop := ∀ s : State, ∃ t, step s = .next t

/-- A fault is precise: but for the latch and the advance nothing changes, and the latch holds the address and the word
of the faulting instruction (decision D7 of the spec; log entries 1 and 2). -/
def Obligations.FaultsArePrecise : Prop :=
  ∀ s t : State, s.runState = .running → s.fault = .none → step s = .next t → t.fault ≠ .none →
    sameExcept [.pc, .latch] s t ∧ t.faultPc = s.pc ∧ cycleResult s = ⟨.fault t.fault, false, false⟩ ∧
    (t.fault = .fetchOutOfRange → t.pc = s.pc ∧ t.faultWord = 0) ∧
    (t.fault ≠ .fetchOutOfRange → t.pc = s.pc + 2 ∧ t.faultWord = s.fetchWord)

/-- Each fault has exactly its own cause. The three range faults are the spec's decisions D6, D12 and D13 (log entries
13 and 14); a full stack is one of 16 entries, the spec's decision D2 (log entry 3), and above 16, which no run reaches,
the model's own choice (log entry 21); the policy of unimplemented words is open, D4 (log entry 5). -/
def Obligations.EachFaultHasItsCause : Prop :=
  ∀ s t : State, s.runState = .running → s.fault = .none → step s = .next t →
    (t.fault = .fetchOutOfRange ↔ 4094 < s.pc.toNat) ∧
    (t.fault = .unimplementedOpcode ↔
      s.pc.toNat ≤ 4094 ∧ decodeWord s.fetchWord = none ∧ Config.unimplPolicy = .fatal) ∧
    (t.fault = .stackOverflow ↔ s.pc.toNat ≤ 4094 ∧ 16 ≤ s.sp ∧ ∃ nnn, decodeWord s.fetchWord = some (.call nnn)) ∧
    (t.fault = .stackUnderflow ↔ s.pc.toNat ≤ 4094 ∧ s.sp = 0 ∧ decodeWord s.fetchWord = some .ret) ∧
    (t.fault = .dataOutOfRange ↔ s.pc.toNat ≤ 4094 ∧ ∃ i, decodeWord s.fetchWord = some i ∧
      1 ≤ bytesAccessed i ∧ 4095 < s.i.toNat + bytesAccessed i - 1) ∧
    (t.fault = .keyIndexOutOfRange ↔ s.pc.toNat ≤ 4094 ∧ ∃ x, 15 < (s.reg x).toNat ∧
      (decodeWord s.fetchWord = some (.skp x) ∨ decodeWord s.fetchWord = some (.sknp x)))

/-- `redraw` is reported exactly for a draw that completes and `tone` exactly for a sound timer set to a nonzero value
(decisions D16, D17 of the spec). -/
def Obligations.RedrawAndToneHaveOneCauseEach : Prop :=
  ∀ s : State,
    ((cycleResult s).redraw = true ↔ s.active = true ∧ s.pc.toNat ≤ 4094 ∧
      ∃ x y n, decodeWord s.fetchWord = some (.drw x y n) ∧ (n = 0 ∨ s.i.toNat + n - 1 ≤ 4095)) ∧
    ((cycleResult s).tone = true ↔ s.active = true ∧ s.pc.toNat ≤ 4094 ∧
      ∃ x, decodeWord s.fetchWord = some (.ldStVx x) ∧ s.reg x ≠ 0)

/-- A self-jump is a fixed point: a machine that has ended normally stays as it is at every step. -/
def Obligations.EndedRunIsAFixedPointOfTheStep : Prop := ∀ s : State, s.endedNormally → step s = .next s

/-! ### The whole machine -/

/-- The values after RESET (the run state is the spec's decision D20, the font bytes its default; log entries 4
and 10). -/
def Obligations.ResetLeavesTheResetValues : Prop :=
  (∀ r, State.reset.reg r = 0) ∧ State.reset.i = 0 ∧ State.reset.pc = 0x200 ∧ State.reset.sp = 0 ∧
  (∀ k, State.reset.stack k = 0) ∧ State.reset.dt = 0 ∧ State.reset.st = 0 ∧ State.reset.keys = 0 ∧
  (∀ y x, State.reset.cell y x = false) ∧ (∀ a, a < 80 → some (State.reset.read a) = Config.font[a]?) ∧
  (∀ a, 80 ≤ a → State.reset.read a = 0) ∧ State.reset.runState = .paused ∧ State.reset.fault = .none ∧
  State.reset.faultPc = 0 ∧ State.reset.faultWord = 0

/-- The invariant holds after RESET. -/
def Obligations.ResetMeetsTheInvariant : Prop := State.reset.Inv

/-- Every step keeps the invariant: canonical memory, stack depth within capacity, program counter at most 4350 and
stack entries at most 4096, a coherent fault latch (the capacity 16 is log entry 3, the form of memory log entry 9). -/
def Obligations.EveryStepKeepsTheInvariant : Prop := ∀ s t : State, s.Inv → step s = .next t → t.Inv

/-- Every event of the host keeps the invariant. -/
def Obligations.EveryEventKeepsTheInvariant : Prop :=
  ∀ (e : Event) (s t : State), s.Inv → eventState e s = .next t → t.Inv

/-- Each part of the state is written only by its own instructions: `I` by ANNN, FX1E and FX29; the display by 00E0 and
DXYN; the timers by FX15 and FX18; the stack by 2NNN and 00EE; memory by FX33 and FX55, inside the bytes they access;
the registers as R22 lists them; the run state and the keypad by none. -/
def Obligations.EachPartHasItsWriters : Prop :=
  ∀ (s t : State) (i : Instr), exec i s = .next t →
    t.runState = s.runState ∧ t.keys = s.keys ∧
    (∀ r, r ∉ writtenRegs i → t.reg r = s.reg r) ∧
    (t.i ≠ s.i → (∃ nnn, i = .ldI nnn) ∨ (∃ x, i = .addI x ∨ i = .ldF x)) ∧
    ((∃ y x, t.cell y x ≠ s.cell y x) → i = .cls ∨ ∃ x y n, i = .drw x y n) ∧
    (t.dt ≠ s.dt → ∃ x, i = .ldDtVx x) ∧
    (t.st ≠ s.st → ∃ x, i = .ldStVx x) ∧
    ((t.sp ≠ s.sp ∨ ∃ k, t.stack k ≠ s.stack k) → i = .ret ∨ ∃ nnn, i = .call nnn) ∧
    (∀ a, t.read a ≠ s.read a →
      (∃ x, i = .ldB x ∨ i = .stRegs x) ∧ s.i.toNat ≤ a ∧ a < s.i.toNat + bytesAccessed i)

/-- The random byte of a step reaches nothing but CXNN. -/
def Obligations.RandomByteReachesOnlyRnd : Prop :=
  ∀ (s : State) (b c : Byte), (∀ x nn, decodeWord s.fetchWord ≠ some (.rnd x nn)) →
    stepEvent b s = stepEvent c s ∧ cycleResult { s with rndIn := some b } = cycleResult { s with rndIn := some c }

/-! ### The host's events -/

/-- The tick counts both timers down to 0 and reports the end of the tone; a shut gate ignores it (decisions D18, D19
of the spec). -/
def Obligations.TickCountsBothTimersDown : Prop :=
  ∀ s : State,
    (s.active = false → tick s = s ∧ tickResult s = ⟨decide (s.st ≠ 0), false⟩) ∧
    (s.active = true → (tick s).dt.toNat = s.dt.toNat - 1 ∧ (tick s).st.toNat = s.st.toNat - 1 ∧
      sameExcept [.delay, .sound] s (tick s) ∧ tickResult s = ⟨decide ((tick s).st ≠ 0), decide (s.st = 1)⟩)

/-- After `n` accepted ticks a timer has lost `n`, and at 0 it stays. -/
def Obligations.TicksBringTimersToZero : Prop :=
  ∀ (n : Nat) (s : State), s.active = true →
    ((tick^[n] s).dt.toNat = s.dt.toNat - n ∧ (tick^[n] s).st.toNat = s.st.toNat - n)

/-- R43: all sixteen key states are written, whatever the run state and the latch, nothing else, and nothing is
reported. -/
def Obligations.SetKeysWritesTheKeypad : Prop :=
  ∀ (s : State) (k : Word), (∀ j, j < 16 → (setKeys k s).pressed j = k.getLsbD j) ∧
    sameExcept [.keypad] s (setKeys k s) ∧ eventState (.setKeys k) s = .next (setKeys k s) ∧
    eventResult (.setKeys k) s = .silent

/-- SET_RUN_STATE writes the run state, but not in Halted (decision D20 of the spec). -/
def Obligations.SetRunStateIsIgnoredInHalted : Prop :=
  ∀ (s : State) (r : RunState),
    (s.runState = .halted → setRunState r s = s) ∧
    (s.runState ≠ .halted → (setRunState r s).runState = r) ∧ sameExcept [.runState] s (setRunState r s)

/-- A program that fits stands at 0x200 after LOAD, the machine runs, and everything else is as after RESET (decisions
D20, D28 of the spec, log entry 10). -/
def Obligations.LoadPlacesTheProgram : Prop :=
  ∀ (bytes : List Byte) (s : State), bytes.length ≤ 3584 →
    loadResult bytes = .ok ∧
    (∀ k, k < bytes.length → some ((loadEvent bytes s).read (0x200 + k)) = bytes[k]?) ∧
    (∀ a, a < 0x200 ∨ 0x200 + bytes.length ≤ a → (loadEvent bytes s).read a = State.reset.read a) ∧
    (loadEvent bytes s).runState = .running ∧ sameExcept [.memory, .runState] (resetEvent s) (loadEvent bytes s)

/-- An oversized program is not loaded: the machine is as after a bare RESET (decision D20 of the spec). -/
def Obligations.OversizedLoadIsAReset : Prop :=
  ∀ (bytes : List Byte) (s : State), 3584 < bytes.length →
    loadResult bytes = .capacityError ∧ loadEvent bytes s = resetEvent s ∧ sameExcept [.random] State.reset (resetEvent s)

/-- A latched fault is cleared only by RESET and LOAD (the latch is the spec's decision D7). -/
def Obligations.OnlyResetAndLoadClearTheLatch : Prop :=
  ∀ (e : Event) (s t : State), s.fault ≠ .none → eventState e s = .next t →
    (e = .reset ∨ (∃ bytes, e = .load bytes) → t.fault = .none ∧ t.faultPc = 0 ∧ t.faultWord = 0) ∧
    (e ≠ .reset → (∀ bytes, e ≠ .load bytes) →
      t.fault = s.fault ∧ t.faultPc = s.faultPc ∧ t.faultWord = s.faultWord)
end

