-- ==== Sys2Proof/Laws/Decode.lean ====
section
/-! SUPPORT. The fields placed in a word: where each lies, what each mask leaves of it, and what each slice reads. -/

namespace Sys2Proof

/-- A field that lies below bit `k` is cleared by a mask without bits below `k`. -/
theorem setWidth_and_eq_zero {k : Nat} (b : BitVec k) (m : Word) (h : ∀ i, i < k → m.getLsbD i = false) :
    b.setWidth 16 &&& m = 0 := by
  apply BitVec.eq_of_getLsbD_eq
  intro i _
  by_cases hik : i < k
  · simp [h i hik]
  · simp [BitVec.getLsbD_of_ge b i (by omega)]

/-- The slice a field was placed in reads the field. -/
theorem extractLsb'_setWidth {k : Nat} (b : BitVec k) (h : k ≤ 16) : (b.setWidth 16).extractLsb' 0 k = b := by
  apply BitVec.eq_of_getLsbD_eq
  intro i hi
  have : i < 16 := by omega
  simp [hi, this]

@[simp] theorem placeX_and_F000 (x : Reg) : placeX x &&& 0xF000#16 = 0#16 := by revert x; decide
@[simp] theorem placeX_and_F00F (x : Reg) : placeX x &&& 0xF00F#16 = 0#16 := by revert x; decide
@[simp] theorem placeX_and_F0FF (x : Reg) : placeX x &&& 0xF0FF#16 = 0#16 := by revert x; decide
@[simp] theorem placeY_and_F000 (y : Reg) : placeY y &&& 0xF000#16 = 0#16 := by revert y; decide
@[simp] theorem placeY_and_F00F (y : Reg) : placeY y &&& 0xF00F#16 = 0#16 := by revert y; decide
@[simp] theorem placeN_and_F000 (n : Nat) : placeN n &&& 0xF000#16 = 0#16 := setWidth_and_eq_zero _ _ (by decide)
@[simp] theorem placeNN_and_F000 (nn : Byte) : placeNN nn &&& 0xF000#16 = 0#16 := setWidth_and_eq_zero _ _ (by decide)
@[simp] theorem placeNNN_and_F000 (nnn : Nat) : placeNNN nnn &&& 0xF000#16 = 0#16 := setWidth_and_eq_zero _ _ (by decide)

@[simp] theorem sliceX_placeX (x : Reg) : ((placeX x).extractLsb' 8 4).toFin = x := by revert x; decide
@[simp] theorem sliceX_placeX' (x : Reg) : (placeX x).extractLsb' 8 4 = BitVec.ofFin x := by revert x; decide
@[simp] theorem sliceY_placeX (x : Reg) : (placeX x).extractLsb' 4 4 = 0 := by revert x; decide
@[simp] theorem sliceN_placeX (x : Reg) : (placeX x).extractLsb' 0 4 = 0 := by revert x; decide
@[simp] theorem sliceNN_placeX (x : Reg) : (placeX x).extractLsb' 0 8 = 0 := by revert x; decide
@[simp] theorem sliceX_placeY (y : Reg) : (placeY y).extractLsb' 8 4 = 0 := by revert y; decide
@[simp] theorem sliceY_placeY (y : Reg) : (placeY y).extractLsb' 4 4 = BitVec.ofFin y := by revert y; decide
@[simp] theorem sliceN_placeY (y : Reg) : (placeY y).extractLsb' 0 4 = 0 := by revert y; decide
@[simp] theorem sliceX_placeNN (nn : Byte) : (placeNN nn).extractLsb' 8 4 = 0 := by revert nn; decide
@[simp] theorem sliceNN_placeNN (nn : Byte) : (placeNN nn).extractLsb' 0 8 = nn := extractLsb'_setWidth nn (by decide)

theorem sliceX_setWidth4 (b : BitVec 4) : (b.setWidth 16).extractLsb' 8 4 = 0 := by revert b; decide
theorem sliceY_setWidth4 (b : BitVec 4) : (b.setWidth 16).extractLsb' 4 4 = 0 := by revert b; decide

@[simp] theorem sliceX_placeN (n : Nat) : (placeN n).extractLsb' 8 4 = 0 := sliceX_setWidth4 _
@[simp] theorem sliceY_placeN (n : Nat) : (placeN n).extractLsb' 4 4 = 0 := sliceY_setWidth4 _
@[simp] theorem sliceN_placeN (n : Nat) : (placeN n).extractLsb' 0 4 = BitVec.ofNat 4 n := extractLsb'_setWidth _ (by decide)
@[simp] theorem sliceNNN_placeNNN (nnn : Nat) : (placeNNN nnn).extractLsb' 0 12 = BitVec.ofNat 12 nnn :=
  extractLsb'_setWidth _ (by decide)

/-- A word of two bytes has those bytes. -/
@[simp] theorem wordOfBytes_bytes (w : Word) : wordOfBytes (highByte w) (lowByte w) = w := by
  apply BitVec.eq_of_getLsbD_eq
  intro i hi
  simp only [wordOfBytes, highByte, lowByte, BitVec.getLsbD_append, BitVec.getLsbD_extractLsb']
  by_cases h : i < 8
  · simp [h]
  · have h8 : i - 8 < 8 := by omega
    have he : 8 + (i - 8) = i := by omega
    simp [h, h8, he]

end Sys2Proof
end

