-- ==== Sys2Proof/Laws/Memory.lean ====
section
/-! SUPPORT. The laws of memory: read after write, and that every write keeps the canonical form. -/

namespace Sys2Proof.Machine.Memory

theorem lookup_insert_same (a : Nat) (b : Byte) (m : Memory) : lookup a (insert a b m) = some b := by
  induction m with
  | nil => simp [insert, lookup]
  | cons c rest ih =>
    obtain ⟨k, v⟩ := c
    simp only [insert]
    split
    · simp [lookup]
    · split
      · simp [lookup]
      · rename_i h1 h2
        simp [lookup, Ne.symm h2, ih]

theorem lookup_insert_other {a a' : Nat} (b : Byte) (m : Memory) (h : a' ≠ a) :
    lookup a' (insert a b m) = lookup a' m := by
  induction m with
  | nil => simp [insert, lookup, h.symm]
  | cons c rest ih =>
    obtain ⟨k, v⟩ := c
    simp only [insert]
    split
    · simp [lookup, h.symm]
    · split
      · rename_i h1 h2
        subst h2
        simp [lookup, h.symm]
      · simp [lookup, ih]

theorem lookup_erase_other {a a' : Nat} (m : Memory) (h : a' ≠ a) : lookup a' (erase a m) = lookup a' m := by
  induction m with
  | nil => rfl
  | cons c rest ih =>
    obtain ⟨k, v⟩ := c
    simp only [erase]
    split
    · rename_i h1
      subst h1
      simp [lookup, h.symm]
    · simp [lookup, ih]

/-- An address below a canonical tail is not listed in it. -/
theorem lookup_none_of_wfFrom {a lo : Nat} {m : Memory} (h : wfFrom lo m = true) (ha : a < lo) : lookup a m = none := by
  induction m generalizing lo with
  | nil => rfl
  | cons c rest ih =>
    obtain ⟨k, v⟩ := c
    simp only [wfFrom, Bool.and_eq_true, decide_eq_true_eq] at h
    simp only [lookup]
    rw [if_neg (by omega), ih h.2 (by omega)]

theorem lookup_erase_same {a lo : Nat} {m : Memory} (h : wfFrom lo m = true) : lookup a (erase a m) = none := by
  induction m generalizing lo with
  | nil => rfl
  | cons c rest ih =>
    obtain ⟨k, v⟩ := c
    simp only [wfFrom, Bool.and_eq_true, decide_eq_true_eq] at h
    simp only [erase]
    split
    · exact lookup_none_of_wfFrom h.2 (by omega)
    · rename_i hk
      simp [lookup, hk, ih h.2]

theorem wfFrom_mono {lo lo' : Nat} {m : Memory} (h : wfFrom lo m = true) (hl : lo' ≤ lo) : wfFrom lo' m = true := by
  cases m with
  | nil => rfl
  | cons c rest =>
    simp only [wfFrom, Bool.and_eq_true, decide_eq_true_eq] at h ⊢
    exact ⟨⟨⟨by omega, h.1.1.2⟩, h.1.2⟩, h.2⟩

theorem wfFrom_insert {lo a : Nat} {b : Byte} {m : Memory} (h : wfFrom lo m = true) (hl : lo ≤ a)
    (ha : a < Config.memSize) (hb : b ≠ resetByte a) : wfFrom lo (insert a b m) = true := by
  induction m generalizing lo with
  | nil => simp [insert, wfFrom, hl, ha, hb]
  | cons c rest ih =>
    obtain ⟨k, v⟩ := c
    simp only [wfFrom, Bool.and_eq_true, decide_eq_true_eq] at h
    simp only [insert]
    split
    · simp only [wfFrom, Bool.and_eq_true, decide_eq_true_eq]
      exact ⟨⟨⟨hl, ha⟩, hb⟩, ⟨⟨by omega, h.1.1.2⟩, h.1.2⟩, h.2⟩
    · split
      · rename_i hk
        subst hk
        simp only [wfFrom, Bool.and_eq_true, decide_eq_true_eq]
        exact ⟨⟨⟨hl, ha⟩, hb⟩, h.2⟩
      · simp only [wfFrom, Bool.and_eq_true, decide_eq_true_eq]
        exact ⟨h.1, ih h.2 (by omega)⟩

theorem wfFrom_erase {lo a : Nat} {m : Memory} (h : wfFrom lo m = true) : wfFrom lo (erase a m) = true := by
  induction m generalizing lo with
  | nil => rfl
  | cons c rest ih =>
    obtain ⟨k, v⟩ := c
    simp only [wfFrom, Bool.and_eq_true, decide_eq_true_eq] at h
    simp only [erase]
    split
    · exact wfFrom_mono h.2 (by omega)
    · simp only [wfFrom, Bool.and_eq_true, decide_eq_true_eq]
      exact ⟨h.1, ih h.2⟩

/-- A write keeps the canonical form. -/
theorem wf_write {m : Memory} (a : Nat) (b : Byte) (h : wf m = true) : wf (write m a b) = true := by
  unfold write
  split
  · split
    · exact wfFrom_erase h
    · exact wfFrom_insert h (Nat.zero_le a) ‹_› ‹_›
  · exact h

theorem wf_writeList {m : Memory} (a : Nat) (bs : List Byte) (h : wf m = true) : wf (writeList m a bs) = true := by
  induction bs generalizing m a with
  | nil => exact h
  | cons b bs ih => exact ih (a + 1) (wf_write a b h)

/-- Read after write, same address (R62, R63). -/
theorem read_write_same {m : Memory} {a : Nat} (b : Byte) (h : wf m = true) (ha : a < Config.memSize) :
    read (write m a b) a = b := by
  unfold write read
  rw [if_pos ha]
  split
  · rename_i hb
    rw [lookup_erase_same h]
    exact hb.symm
  · rw [lookup_insert_same]
    rfl

/-- Read after write, another address (R63). -/
theorem read_write_other (m : Memory) {a a' : Nat} (b : Byte) (h : a' ≠ a) : read (write m a b) a' = read m a' := by
  unfold write read
  split
  · split
    · rw [lookup_erase_other m h]
    · rw [lookup_insert_other b m h]
  · rfl

/-- What a write of consecutive bytes leaves at an address outside them. -/
theorem read_writeList_other (m : Memory) {a a' : Nat} (bs : List Byte) (h : a' < a ∨ a + bs.length ≤ a') :
    read (writeList m a bs) a' = read m a' := by
  induction bs generalizing m a with
  | nil => rfl
  | cons b bs ih =>
    simp only [List.length_cons] at h
    rw [writeList, ih _ (by omega), read_write_other _ _ (by omega)]

/-- What a write of consecutive bytes leaves at the `k`-th of them. -/
theorem read_writeList_same {m : Memory} {a k : Nat} {bs : List Byte} (h : wf m = true) (hk : k < bs.length)
    (ha : a + bs.length ≤ Config.memSize) : read (writeList m a bs) (a + k) = bs[k] := by
  induction bs generalizing m a k with
  | nil => simp at hk
  | cons b bs ih =>
    simp only [List.length_cons] at hk ha
    cases k with
    | zero =>
      rw [writeList, read_writeList_other _ _ (by omega)]
      exact read_write_same b h (by omega)
    | succ k =>
      have hw := wf_write a b h
      rw [writeList, show a + (k + 1) = a + 1 + k by omega, ih hw (by omega) (by omega)]
      rfl

@[simp] theorem readList_length (m : Memory) (a n : Nat) : (readList m a n).length = n := by
  induction n generalizing a with
  | zero => rfl
  | succ n ih => simp [readList, ih]

theorem getElem_readList (m : Memory) (a n k : Nat) (h : k < (readList m a n).length) :
    (readList m a n)[k] = read m (a + k) := by
  induction n generalizing a k with
  | zero => simp [readList] at h
  | succ n ih =>
    cases k with
    | zero => simp [readList]
    | succ k =>
      simp only [readList, List.getElem_cons_succ]
      rw [ih, show a + 1 + k = a + (k + 1) by omega]

/-- Two memories that read alike from `lo` on and are canonical from `lo` on are the same list. -/
theorem eq_of_read_eq_from {lo : Nat} {m m' : Memory} (h : wfFrom lo m = true) (h' : wfFrom lo m' = true)
    (hr : ∀ a, read m a = read m' a) : m = m' := by
  induction m generalizing lo m' with
  | nil =>
    cases m' with
    | nil => rfl
    | cons c rest =>
      obtain ⟨k, v⟩ := c
      simp only [wfFrom, Bool.and_eq_true, decide_eq_true_eq] at h'
      exact absurd (by simpa [read, lookup] using (hr k).symm) h'.1.2
  | cons c rest ih =>
    obtain ⟨k, v⟩ := c
    have hk := h
    simp only [wfFrom, Bool.and_eq_true, decide_eq_true_eq] at hk
    cases m' with
    | nil => exact absurd (by simpa [read, lookup] using hr k) hk.1.2
    | cons c' rest' =>
      obtain ⟨k', v'⟩ := c'
      have hk' := h'
      simp only [wfFrom, Bool.and_eq_true, decide_eq_true_eq] at hk'
      have hkk : k = k' := by
        rcases Nat.lt_trichotomy k k' with hlt | heq | hgt
        · have hn : lookup k rest' = none := lookup_none_of_wfFrom hk'.2 (by omega)
          have hne : k' ≠ k := by omega
          exact absurd (by simpa [read, lookup, hne, hn] using hr k) hk.1.2
        · exact heq
        · have hn : lookup k' rest = none := lookup_none_of_wfFrom hk.2 (by omega)
          have hne : k ≠ k' := by omega
          exact absurd (by simpa [read, lookup, hne, hn] using (hr k').symm) hk'.1.2
      subst hkk
      have hv : v = v' := by simpa [read, lookup] using hr k
      subst hv
      have hrest : rest = rest' := by
        refine ih hk.2 hk'.2 (fun a => ?_)
        by_cases ha : k = a
        · subst ha
          simp [read, lookup_none_of_wfFrom hk.2 (Nat.lt_succ_self k), lookup_none_of_wfFrom hk'.2 (Nat.lt_succ_self k)]
        · simpa [read, lookup, ha] using hr a
      rw [hrest]

/-- Canonical memories are equal when every byte reads alike. -/
theorem eq_of_read_eq {m m' : Memory} (h : wf m = true) (h' : wf m' = true) (hr : ∀ a, read m a = read m' a) : m = m' :=
  eq_of_read_eq_from h h' hr

end Sys2Proof.Machine.Memory
end

