-- ==== Sys2Proof/Laws/State.lean ====
section
/-! SUPPORT. What each update of the state does to each field, and to what is read through the accessors: one lemma per field per update. -/

namespace Sys2Proof.Machine

/-! ### A register write -/

@[simp] theorem State.setReg_v (s : State) (x : Reg) (b : Byte) : (s.setReg x b).v = s.v.set x.val b := rfl
@[simp] theorem State.setReg_i (s : State) (x : Reg) (b : Byte) : (s.setReg x b).i = s.i := rfl
@[simp] theorem State.setReg_pc (s : State) (x : Reg) (b : Byte) : (s.setReg x b).pc = s.pc := rfl
@[simp] theorem State.setReg_sp (s : State) (x : Reg) (b : Byte) : (s.setReg x b).sp = s.sp := rfl
@[simp] theorem State.setReg_stk (s : State) (x : Reg) (b : Byte) : (s.setReg x b).stk = s.stk := rfl
@[simp] theorem State.setReg_dt (s : State) (x : Reg) (b : Byte) : (s.setReg x b).dt = s.dt := rfl
@[simp] theorem State.setReg_st (s : State) (x : Reg) (b : Byte) : (s.setReg x b).st = s.st := rfl
@[simp] theorem State.setReg_keys (s : State) (x : Reg) (b : Byte) : (s.setReg x b).keys = s.keys := rfl
@[simp] theorem State.setReg_disp (s : State) (x : Reg) (b : Byte) : (s.setReg x b).disp = s.disp := rfl
@[simp] theorem State.setReg_mem (s : State) (x : Reg) (b : Byte) : (s.setReg x b).mem = s.mem := rfl
@[simp] theorem State.setReg_runState (s : State) (x : Reg) (b : Byte) : (s.setReg x b).runState = s.runState := rfl
@[simp] theorem State.setReg_fault (s : State) (x : Reg) (b : Byte) : (s.setReg x b).fault = s.fault := rfl
@[simp] theorem State.setReg_faultPc (s : State) (x : Reg) (b : Byte) : (s.setReg x b).faultPc = s.faultPc := rfl
@[simp] theorem State.setReg_faultWord (s : State) (x : Reg) (b : Byte) : (s.setReg x b).faultWord = s.faultWord := rfl
@[simp] theorem State.setReg_rndIn (s : State) (x : Reg) (b : Byte) : (s.setReg x b).rndIn = s.rndIn := rfl
@[simp] theorem State.setReg_draws (s : State) (x : Reg) (b : Byte) : (s.setReg x b).draws = s.draws := rfl
@[simp] theorem State.setReg_read (s : State) (x : Reg) (b : Byte) (m : Nat) : (s.setReg x b).read m = s.read m := by simp [State.read]
@[simp] theorem State.setReg_cell (s : State) (x : Reg) (b : Byte) (p q : Nat) : (s.setReg x b).cell p q = s.cell p q := by simp [State.cell]
@[simp] theorem State.setReg_stack (s : State) (x : Reg) (b : Byte) (k : Nat) : (s.setReg x b).stack k = s.stack k := by simp [State.stack]

/-! ### A register write with its flag -/

@[simp] theorem State.setRegFlag_v (s : State) (x : Reg) (b f : Byte) : (s.setRegFlag x b f).v = (s.v.set x.val b).set VF.val f := rfl
@[simp] theorem State.setRegFlag_i (s : State) (x : Reg) (b f : Byte) : (s.setRegFlag x b f).i = s.i := rfl
@[simp] theorem State.setRegFlag_pc (s : State) (x : Reg) (b f : Byte) : (s.setRegFlag x b f).pc = s.pc := rfl
@[simp] theorem State.setRegFlag_sp (s : State) (x : Reg) (b f : Byte) : (s.setRegFlag x b f).sp = s.sp := rfl
@[simp] theorem State.setRegFlag_stk (s : State) (x : Reg) (b f : Byte) : (s.setRegFlag x b f).stk = s.stk := rfl
@[simp] theorem State.setRegFlag_dt (s : State) (x : Reg) (b f : Byte) : (s.setRegFlag x b f).dt = s.dt := rfl
@[simp] theorem State.setRegFlag_st (s : State) (x : Reg) (b f : Byte) : (s.setRegFlag x b f).st = s.st := rfl
@[simp] theorem State.setRegFlag_keys (s : State) (x : Reg) (b f : Byte) : (s.setRegFlag x b f).keys = s.keys := rfl
@[simp] theorem State.setRegFlag_disp (s : State) (x : Reg) (b f : Byte) : (s.setRegFlag x b f).disp = s.disp := rfl
@[simp] theorem State.setRegFlag_mem (s : State) (x : Reg) (b f : Byte) : (s.setRegFlag x b f).mem = s.mem := rfl
@[simp] theorem State.setRegFlag_runState (s : State) (x : Reg) (b f : Byte) : (s.setRegFlag x b f).runState = s.runState := rfl
@[simp] theorem State.setRegFlag_fault (s : State) (x : Reg) (b f : Byte) : (s.setRegFlag x b f).fault = s.fault := rfl
@[simp] theorem State.setRegFlag_faultPc (s : State) (x : Reg) (b f : Byte) : (s.setRegFlag x b f).faultPc = s.faultPc := rfl
@[simp] theorem State.setRegFlag_faultWord (s : State) (x : Reg) (b f : Byte) : (s.setRegFlag x b f).faultWord = s.faultWord := rfl
@[simp] theorem State.setRegFlag_rndIn (s : State) (x : Reg) (b f : Byte) : (s.setRegFlag x b f).rndIn = s.rndIn := rfl
@[simp] theorem State.setRegFlag_draws (s : State) (x : Reg) (b f : Byte) : (s.setRegFlag x b f).draws = s.draws := rfl
@[simp] theorem State.setRegFlag_read (s : State) (x : Reg) (b f : Byte) (m : Nat) : (s.setRegFlag x b f).read m = s.read m := by simp [State.read]
@[simp] theorem State.setRegFlag_cell (s : State) (x : Reg) (b f : Byte) (p q : Nat) : (s.setRegFlag x b f).cell p q = s.cell p q := by simp [State.cell]
@[simp] theorem State.setRegFlag_stack (s : State) (x : Reg) (b f : Byte) (k : Nat) : (s.setRegFlag x b f).stack k = s.stack k := by simp [State.stack]

/-! ### The fetch advance -/

@[simp] theorem State.advance_v (s : State) : s.advance.v = s.v := rfl
@[simp] theorem State.advance_i (s : State) : s.advance.i = s.i := rfl
@[simp] theorem State.advance_pc (s : State) : s.advance.pc = s.pc + 2 := rfl
@[simp] theorem State.advance_sp (s : State) : s.advance.sp = s.sp := rfl
@[simp] theorem State.advance_stk (s : State) : s.advance.stk = s.stk := rfl
@[simp] theorem State.advance_dt (s : State) : s.advance.dt = s.dt := rfl
@[simp] theorem State.advance_st (s : State) : s.advance.st = s.st := rfl
@[simp] theorem State.advance_keys (s : State) : s.advance.keys = s.keys := rfl
@[simp] theorem State.advance_disp (s : State) : s.advance.disp = s.disp := rfl
@[simp] theorem State.advance_mem (s : State) : s.advance.mem = s.mem := rfl
@[simp] theorem State.advance_runState (s : State) : s.advance.runState = s.runState := rfl
@[simp] theorem State.advance_fault (s : State) : s.advance.fault = s.fault := rfl
@[simp] theorem State.advance_faultPc (s : State) : s.advance.faultPc = s.faultPc := rfl
@[simp] theorem State.advance_faultWord (s : State) : s.advance.faultWord = s.faultWord := rfl
@[simp] theorem State.advance_rndIn (s : State) : s.advance.rndIn = s.rndIn := rfl
@[simp] theorem State.advance_draws (s : State) : s.advance.draws = s.draws := rfl
@[simp] theorem State.advance_reg (s : State) (r : Reg) : s.advance.reg r = s.reg r := by simp [State.reg]
@[simp] theorem State.advance_read (s : State) (m : Nat) : s.advance.read m = s.read m := by simp [State.read]
@[simp] theorem State.advance_cell (s : State) (p q : Nat) : s.advance.cell p q = s.cell p q := by simp [State.cell]
@[simp] theorem State.advance_stack (s : State) (k : Nat) : s.advance.stack k = s.stack k := by simp [State.stack]

/-! ### A jump -/

@[simp] theorem State.setPc_v (s : State) (w : Word) : (s.setPc w).v = s.v := rfl
@[simp] theorem State.setPc_i (s : State) (w : Word) : (s.setPc w).i = s.i := rfl
@[simp] theorem State.setPc_pc (s : State) (w : Word) : (s.setPc w).pc = w := rfl
@[simp] theorem State.setPc_sp (s : State) (w : Word) : (s.setPc w).sp = s.sp := rfl
@[simp] theorem State.setPc_stk (s : State) (w : Word) : (s.setPc w).stk = s.stk := rfl
@[simp] theorem State.setPc_dt (s : State) (w : Word) : (s.setPc w).dt = s.dt := rfl
@[simp] theorem State.setPc_st (s : State) (w : Word) : (s.setPc w).st = s.st := rfl
@[simp] theorem State.setPc_keys (s : State) (w : Word) : (s.setPc w).keys = s.keys := rfl
@[simp] theorem State.setPc_disp (s : State) (w : Word) : (s.setPc w).disp = s.disp := rfl
@[simp] theorem State.setPc_mem (s : State) (w : Word) : (s.setPc w).mem = s.mem := rfl
@[simp] theorem State.setPc_runState (s : State) (w : Word) : (s.setPc w).runState = s.runState := rfl
@[simp] theorem State.setPc_fault (s : State) (w : Word) : (s.setPc w).fault = s.fault := rfl
@[simp] theorem State.setPc_faultPc (s : State) (w : Word) : (s.setPc w).faultPc = s.faultPc := rfl
@[simp] theorem State.setPc_faultWord (s : State) (w : Word) : (s.setPc w).faultWord = s.faultWord := rfl
@[simp] theorem State.setPc_rndIn (s : State) (w : Word) : (s.setPc w).rndIn = s.rndIn := rfl
@[simp] theorem State.setPc_draws (s : State) (w : Word) : (s.setPc w).draws = s.draws := rfl
@[simp] theorem State.setPc_reg (s : State) (w : Word) (r : Reg) : (s.setPc w).reg r = s.reg r := by simp [State.reg]
@[simp] theorem State.setPc_read (s : State) (w : Word) (m : Nat) : (s.setPc w).read m = s.read m := by simp [State.read]
@[simp] theorem State.setPc_cell (s : State) (w : Word) (p q : Nat) : (s.setPc w).cell p q = s.cell p q := by simp [State.cell]
@[simp] theorem State.setPc_stack (s : State) (w : Word) (k : Nat) : (s.setPc w).stack k = s.stack k := by simp [State.stack]

/-! ### A skip -/

@[simp] theorem State.skipIf_v (s : State) (c : Bool) : (s.skipIf c).v = s.v := by cases c <;> rfl
@[simp] theorem State.skipIf_i (s : State) (c : Bool) : (s.skipIf c).i = s.i := by cases c <;> rfl
@[simp] theorem State.skipIf_pc (s : State) (c : Bool) : (s.skipIf c).pc = if c then s.pc + 2 else s.pc := by cases c <;> rfl
@[simp] theorem State.skipIf_sp (s : State) (c : Bool) : (s.skipIf c).sp = s.sp := by cases c <;> rfl
@[simp] theorem State.skipIf_stk (s : State) (c : Bool) : (s.skipIf c).stk = s.stk := by cases c <;> rfl
@[simp] theorem State.skipIf_dt (s : State) (c : Bool) : (s.skipIf c).dt = s.dt := by cases c <;> rfl
@[simp] theorem State.skipIf_st (s : State) (c : Bool) : (s.skipIf c).st = s.st := by cases c <;> rfl
@[simp] theorem State.skipIf_keys (s : State) (c : Bool) : (s.skipIf c).keys = s.keys := by cases c <;> rfl
@[simp] theorem State.skipIf_disp (s : State) (c : Bool) : (s.skipIf c).disp = s.disp := by cases c <;> rfl
@[simp] theorem State.skipIf_mem (s : State) (c : Bool) : (s.skipIf c).mem = s.mem := by cases c <;> rfl
@[simp] theorem State.skipIf_runState (s : State) (c : Bool) : (s.skipIf c).runState = s.runState := by cases c <;> rfl
@[simp] theorem State.skipIf_fault (s : State) (c : Bool) : (s.skipIf c).fault = s.fault := by cases c <;> rfl
@[simp] theorem State.skipIf_faultPc (s : State) (c : Bool) : (s.skipIf c).faultPc = s.faultPc := by cases c <;> rfl
@[simp] theorem State.skipIf_faultWord (s : State) (c : Bool) : (s.skipIf c).faultWord = s.faultWord := by cases c <;> rfl
@[simp] theorem State.skipIf_rndIn (s : State) (c : Bool) : (s.skipIf c).rndIn = s.rndIn := by cases c <;> rfl
@[simp] theorem State.skipIf_draws (s : State) (c : Bool) : (s.skipIf c).draws = s.draws := by cases c <;> rfl
@[simp] theorem State.skipIf_reg (s : State) (c : Bool) (r : Reg) : (s.skipIf c).reg r = s.reg r := by simp [State.reg]
@[simp] theorem State.skipIf_read (s : State) (c : Bool) (m : Nat) : (s.skipIf c).read m = s.read m := by simp [State.read]
@[simp] theorem State.skipIf_cell (s : State) (c : Bool) (p q : Nat) : (s.skipIf c).cell p q = s.cell p q := by simp [State.cell]
@[simp] theorem State.skipIf_stack (s : State) (c : Bool) (k : Nat) : (s.skipIf c).stack k = s.stack k := by simp [State.stack]

/-! ### A push -/

@[simp] theorem State.push_v (s : State) (w : Word) : (s.push w).v = s.v := rfl
@[simp] theorem State.push_i (s : State) (w : Word) : (s.push w).i = s.i := rfl
@[simp] theorem State.push_pc (s : State) (w : Word) : (s.push w).pc = s.pc := rfl
@[simp] theorem State.push_sp (s : State) (w : Word) : (s.push w).sp = s.sp + 1 := rfl
@[simp] theorem State.push_stk (s : State) (w : Word) : (s.push w).stk = s.stk.setIfInBounds s.sp w := rfl
@[simp] theorem State.push_dt (s : State) (w : Word) : (s.push w).dt = s.dt := rfl
@[simp] theorem State.push_st (s : State) (w : Word) : (s.push w).st = s.st := rfl
@[simp] theorem State.push_keys (s : State) (w : Word) : (s.push w).keys = s.keys := rfl
@[simp] theorem State.push_disp (s : State) (w : Word) : (s.push w).disp = s.disp := rfl
@[simp] theorem State.push_mem (s : State) (w : Word) : (s.push w).mem = s.mem := rfl
@[simp] theorem State.push_runState (s : State) (w : Word) : (s.push w).runState = s.runState := rfl
@[simp] theorem State.push_fault (s : State) (w : Word) : (s.push w).fault = s.fault := rfl
@[simp] theorem State.push_faultPc (s : State) (w : Word) : (s.push w).faultPc = s.faultPc := rfl
@[simp] theorem State.push_faultWord (s : State) (w : Word) : (s.push w).faultWord = s.faultWord := rfl
@[simp] theorem State.push_rndIn (s : State) (w : Word) : (s.push w).rndIn = s.rndIn := rfl
@[simp] theorem State.push_draws (s : State) (w : Word) : (s.push w).draws = s.draws := rfl
@[simp] theorem State.push_reg (s : State) (w : Word) (r : Reg) : (s.push w).reg r = s.reg r := by simp [State.reg]
@[simp] theorem State.push_read (s : State) (w : Word) (m : Nat) : (s.push w).read m = s.read m := by simp [State.read]
@[simp] theorem State.push_cell (s : State) (w : Word) (p q : Nat) : (s.push w).cell p q = s.cell p q := by simp [State.cell]

/-! ### A pop -/

@[simp] theorem State.pop_v (s : State) : s.pop.v = s.v := rfl
@[simp] theorem State.pop_i (s : State) : s.pop.i = s.i := rfl
@[simp] theorem State.pop_pc (s : State) : s.pop.pc = s.pc := rfl
@[simp] theorem State.pop_sp (s : State) : s.pop.sp = s.sp - 1 := rfl
@[simp] theorem State.pop_stk (s : State) : s.pop.stk = s.stk := rfl
@[simp] theorem State.pop_dt (s : State) : s.pop.dt = s.dt := rfl
@[simp] theorem State.pop_st (s : State) : s.pop.st = s.st := rfl
@[simp] theorem State.pop_keys (s : State) : s.pop.keys = s.keys := rfl
@[simp] theorem State.pop_disp (s : State) : s.pop.disp = s.disp := rfl
@[simp] theorem State.pop_mem (s : State) : s.pop.mem = s.mem := rfl
@[simp] theorem State.pop_runState (s : State) : s.pop.runState = s.runState := rfl
@[simp] theorem State.pop_fault (s : State) : s.pop.fault = s.fault := rfl
@[simp] theorem State.pop_faultPc (s : State) : s.pop.faultPc = s.faultPc := rfl
@[simp] theorem State.pop_faultWord (s : State) : s.pop.faultWord = s.faultWord := rfl
@[simp] theorem State.pop_rndIn (s : State) : s.pop.rndIn = s.rndIn := rfl
@[simp] theorem State.pop_draws (s : State) : s.pop.draws = s.draws := rfl
@[simp] theorem State.pop_reg (s : State) (r : Reg) : s.pop.reg r = s.reg r := by simp [State.reg]
@[simp] theorem State.pop_read (s : State) (m : Nat) : s.pop.read m = s.read m := by simp [State.read]
@[simp] theorem State.pop_cell (s : State) (p q : Nat) : s.pop.cell p q = s.cell p q := by simp [State.cell]
@[simp] theorem State.pop_stack (s : State) (k : Nat) : s.pop.stack k = s.stack k := by simp [State.stack]

/-! ### The fault latch -/

@[simp] theorem State.latch_v (s : State) (c : FaultCode) (a w : Word) : (s.latch c a w).v = s.v := rfl
@[simp] theorem State.latch_i (s : State) (c : FaultCode) (a w : Word) : (s.latch c a w).i = s.i := rfl
@[simp] theorem State.latch_pc (s : State) (c : FaultCode) (a w : Word) : (s.latch c a w).pc = s.pc := rfl
@[simp] theorem State.latch_sp (s : State) (c : FaultCode) (a w : Word) : (s.latch c a w).sp = s.sp := rfl
@[simp] theorem State.latch_stk (s : State) (c : FaultCode) (a w : Word) : (s.latch c a w).stk = s.stk := rfl
@[simp] theorem State.latch_dt (s : State) (c : FaultCode) (a w : Word) : (s.latch c a w).dt = s.dt := rfl
@[simp] theorem State.latch_st (s : State) (c : FaultCode) (a w : Word) : (s.latch c a w).st = s.st := rfl
@[simp] theorem State.latch_keys (s : State) (c : FaultCode) (a w : Word) : (s.latch c a w).keys = s.keys := rfl
@[simp] theorem State.latch_disp (s : State) (c : FaultCode) (a w : Word) : (s.latch c a w).disp = s.disp := rfl
@[simp] theorem State.latch_mem (s : State) (c : FaultCode) (a w : Word) : (s.latch c a w).mem = s.mem := rfl
@[simp] theorem State.latch_runState (s : State) (c : FaultCode) (a w : Word) : (s.latch c a w).runState = s.runState := rfl
@[simp] theorem State.latch_fault (s : State) (c : FaultCode) (a w : Word) : (s.latch c a w).fault = c := rfl
@[simp] theorem State.latch_faultPc (s : State) (c : FaultCode) (a w : Word) : (s.latch c a w).faultPc = a := rfl
@[simp] theorem State.latch_faultWord (s : State) (c : FaultCode) (a w : Word) : (s.latch c a w).faultWord = w := rfl
@[simp] theorem State.latch_rndIn (s : State) (c : FaultCode) (a w : Word) : (s.latch c a w).rndIn = s.rndIn := rfl
@[simp] theorem State.latch_draws (s : State) (c : FaultCode) (a w : Word) : (s.latch c a w).draws = s.draws := rfl
@[simp] theorem State.latch_reg (s : State) (c : FaultCode) (a w : Word) (r : Reg) : (s.latch c a w).reg r = s.reg r := by simp [State.reg]
@[simp] theorem State.latch_read (s : State) (c : FaultCode) (a w : Word) (m : Nat) : (s.latch c a w).read m = s.read m := by simp [State.read]
@[simp] theorem State.latch_cell (s : State) (c : FaultCode) (a w : Word) (p q : Nat) : (s.latch c a w).cell p q = s.cell p q := by simp [State.cell]
@[simp] theorem State.latch_stack (s : State) (c : FaultCode) (a w : Word) (k : Nat) : (s.latch c a w).stack k = s.stack k := by simp [State.stack]

/-! ### The draw of a random byte -/

@[simp] theorem State.afterDraw_v (s : State) : s.afterDraw.v = s.v := by unfold State.afterDraw; cases h : s.rndIn <;> simp_all
@[simp] theorem State.afterDraw_i (s : State) : s.afterDraw.i = s.i := by unfold State.afterDraw; cases h : s.rndIn <;> simp_all
@[simp] theorem State.afterDraw_pc (s : State) : s.afterDraw.pc = s.pc := by unfold State.afterDraw; cases h : s.rndIn <;> simp_all
@[simp] theorem State.afterDraw_sp (s : State) : s.afterDraw.sp = s.sp := by unfold State.afterDraw; cases h : s.rndIn <;> simp_all
@[simp] theorem State.afterDraw_stk (s : State) : s.afterDraw.stk = s.stk := by unfold State.afterDraw; cases h : s.rndIn <;> simp_all
@[simp] theorem State.afterDraw_dt (s : State) : s.afterDraw.dt = s.dt := by unfold State.afterDraw; cases h : s.rndIn <;> simp_all
@[simp] theorem State.afterDraw_st (s : State) : s.afterDraw.st = s.st := by unfold State.afterDraw; cases h : s.rndIn <;> simp_all
@[simp] theorem State.afterDraw_keys (s : State) : s.afterDraw.keys = s.keys := by unfold State.afterDraw; cases h : s.rndIn <;> simp_all
@[simp] theorem State.afterDraw_disp (s : State) : s.afterDraw.disp = s.disp := by unfold State.afterDraw; cases h : s.rndIn <;> simp_all
@[simp] theorem State.afterDraw_mem (s : State) : s.afterDraw.mem = s.mem := by unfold State.afterDraw; cases h : s.rndIn <;> simp_all
@[simp] theorem State.afterDraw_runState (s : State) : s.afterDraw.runState = s.runState := by unfold State.afterDraw; cases h : s.rndIn <;> simp_all
@[simp] theorem State.afterDraw_fault (s : State) : s.afterDraw.fault = s.fault := by unfold State.afterDraw; cases h : s.rndIn <;> simp_all
@[simp] theorem State.afterDraw_faultPc (s : State) : s.afterDraw.faultPc = s.faultPc := by unfold State.afterDraw; cases h : s.rndIn <;> simp_all
@[simp] theorem State.afterDraw_faultWord (s : State) : s.afterDraw.faultWord = s.faultWord := by unfold State.afterDraw; cases h : s.rndIn <;> simp_all
@[simp] theorem State.afterDraw_rndIn (s : State) : s.afterDraw.rndIn = s.rndIn := by unfold State.afterDraw; cases h : s.rndIn <;> simp_all
@[simp] theorem State.afterDraw_draws (s : State) : s.afterDraw.draws = if s.rndIn = none then s.draws + 1 else s.draws := by unfold State.afterDraw; cases h : s.rndIn <;> simp_all
@[simp] theorem State.afterDraw_reg (s : State) (r : Reg) : s.afterDraw.reg r = s.reg r := by simp [State.reg]
@[simp] theorem State.afterDraw_read (s : State) (m : Nat) : s.afterDraw.read m = s.read m := by simp [State.read]
@[simp] theorem State.afterDraw_cell (s : State) (p q : Nat) : s.afterDraw.cell p q = s.cell p q := by simp [State.cell]
@[simp] theorem State.afterDraw_stack (s : State) (k : Nat) : s.afterDraw.stack k = s.stack k := by simp [State.stack]

/-! ### The reads that an update changes -/

theorem State.setReg_reg (s : State) (x r : Reg) (b : Byte) : (s.setReg x b).reg r = if r = x then b else s.reg r := by
  simp only [State.reg, State.setReg_v, Vector.getElem_set, Fin.ext_iff]
  simp only [eq_comm]

@[simp] theorem State.setReg_reg_same (s : State) (x : Reg) (b : Byte) : (s.setReg x b).reg x = b := by
  simp [State.setReg_reg]

theorem State.setReg_reg_other (s : State) {x r : Reg} (b : Byte) (h : r ≠ x) : (s.setReg x b).reg r = s.reg r := by
  simp [State.setReg_reg, h]

theorem State.setRegFlag_reg (s : State) (x r : Reg) (b f : Byte) :
    (s.setRegFlag x b f).reg r = if r = VF then f else if r = x then b else s.reg r := by
  simp [State.setRegFlag, State.setReg_reg]

theorem State.push_stack (s : State) (w : Word) (k : Nat) :
    (s.push w).stack k = if k = s.sp ∧ s.sp < Config.stackCapacity then w else s.stack k := by
  simp only [State.stack, State.push_stk, Vector.getElem?_setIfInBounds]
  grind

/-! ### What the parts of a frame say -/

theorem sameExcept_refl (ps : List Part) (s : State) : sameExcept ps s s := by simp [sameExcept]

theorem sameExcept_setReg (s : State) (x : Reg) (b : Byte) : sameExcept [.regs] s (s.setReg x b) := by simp [sameExcept]

theorem sameExcept_setRegFlag (s : State) (x : Reg) (b f : Byte) : sameExcept [.regs] s (s.setRegFlag x b f) := by
  simp [sameExcept]

theorem sameExcept_setPc (s : State) (w : Word) : sameExcept [.pc] s (s.setPc w) := by simp [sameExcept]

theorem sameExcept_skipIf (s : State) (c : Bool) : sameExcept [.pc] s (s.skipIf c) := by simp [sameExcept]

theorem sameExcept_latch (s : State) (c : FaultCode) (a w : Word) : sameExcept [.latch] s (s.latch c a w) := by
  simp [sameExcept]

end Sys2Proof.Machine
end

