-- ==== Sys2Proof/Laws/Operands.lean ====
section
/-! SUPPORT. One lemma per operand form, flag and gate: what it answers, so that no later proof unfolds it. -/

namespace Sys2Proof.Machine

theorem State.active_iff (s : State) : s.active = true ↔ s.runState = .running ∧ s.fault = .none := by
  simp [State.active]

theorem State.fetchable_iff (s : State) : s.fetchable = true ↔ s.pc.toNat ≤ 4094 := by simp [State.fetchable]

theorem State.dataInRange_iff (s : State) (n : Nat) : s.dataInRange n = true ↔ n = 0 ∨ s.i.toNat + n - 1 ≤ 4095 := by
  simp [State.dataInRange]

theorem keyIndexOk_iff (b : Byte) : keyIndexOk b = true ↔ b.toNat ≤ 15 := by simp [keyIndexOk]

theorem target_toNat {nnn : Nat} (h : nnn < 4096) : (target nnn).toNat = nnn := by
  rw [target, BitVec.toNat_ofNat]
  omega

theorem zext_toNat (b : Byte) : (zext b).toNat = b.toNat := by
  rw [zext, BitVec.toNat_setWidth]
  omega

@[simp] theorem State.block_length (s : State) (x : Reg) : (s.block x).length = x.val + 1 := by
  simp [State.block]

theorem State.getElem_block (s : State) (x : Reg) (k : Nat) (h : k < (s.block x).length) :
    (s.block x)[k] = s.reg ⟨k, by have := s.block_length x; omega⟩ := by
  simp [State.block, State.reg]

@[simp] theorem digits_length (b : Byte) : (digits b).length = 3 := rfl

/-- A block load writes the registers from the `k`-th on, one per byte, and no other. -/
theorem getElem_loadBlock (v : Vector Byte 16) (k : Nat) (bs : List Byte) (j : Nat) (hj : j < 16) :
    (loadBlock v k bs)[j] = if h : k ≤ j ∧ j < k + bs.length then bs[j - k] else v[j] := by
  induction bs generalizing v k with
  | nil => simp [loadBlock]
  | cons b bs ih =>
    rw [loadBlock, ih]
    by_cases hkj : k = j
    · subst hkj
      simp
    · by_cases hr : k + 1 ≤ j ∧ j < k + 1 + bs.length
      · have hr' : k ≤ j ∧ j < k + (bs.length + 1) := by omega
        have he : j - k = (j - (k + 1)) + 1 := by omega
        simp [hr, hr', he]
      · have hr' : ¬(k ≤ j ∧ j < k + (bs.length + 1)) := by omega
        rw [dif_neg hr, dif_neg (by simpa using hr'), Vector.getElem_setIfInBounds_ne _ hkj]

theorem State.mem_pressedKeys (s : State) (k : Reg) : k ∈ s.pressedKeys ↔ s.pressed k.val = true := by
  simp [State.pressedKeys]

/-- No key is selected exactly when none is pressed. -/
theorem selectKey_eq_none (s : State) : selectKey s = none ↔ ∀ k : Reg, s.pressed k.val = false := by
  have h := s.mem_pressedKeys
  unfold selectKey
  split
  · rename_i he
    simpa [he] using h
  · rename_i k he
    simp only [reduceCtorEq, false_iff, not_forall]
    exact ⟨k, by simpa using (h k).1 (by simp [he])⟩
  · rename_i a ks hne he
    constructor
    · intro hn
      split at hn <;> cases hn
    · intro hn
      exact absurd ((h a).1 (by simp [he])) (by simp [hn a])

/-- The selected key is a pressed one. -/
theorem pressed_of_selectKey {s : State} {k : Reg} (hk : selectKey s = some k) : s.pressed k.val = true := by
  have h := s.mem_pressedKeys
  unfold selectKey at hk
  split at hk
  · cases hk
  · rename_i he
    cases hk
    exact (h _).1 (by simp [he])
  · rename_i a ks hne he
    split at hk
    · rename_i hm
      cases hk
      exact (h _).1 (by rw [he]; exact hm)
    · cases hk
      exact (h _).1 (by simp [he])

theorem flagByte_zero_or_one (c : Bool) : flagByte c = 0 ∨ flagByte c = 1 := by cases c <;> simp [flagByte]

/-- A register write and nothing else is what `writesOnly` says. -/
theorem writesOnly_of_setReg {i : Instr} {s : State} {x : Reg} {b : Byte} (h : exec i s = .next (s.setReg x b)) :
    writesOnly i s x b :=
  ⟨_, h, s.setReg_reg_same x b, fun _ hr => s.setReg_reg_other b (by simpa using hr), sameExcept_setReg s x b⟩

/-- A register write with its flag is what `writesWithFlag` says. -/
theorem writesWithFlag_of_setRegFlag {i : Instr} {s : State} {x : Reg} {b f : Byte}
    (h : exec i s = .next (s.setRegFlag x b f)) : writesWithFlag i s x b f := by
  refine ⟨_, h, by simp [State.setRegFlag_reg], fun hx => by simp [State.setRegFlag_reg, hx], fun r hr => ?_,
    sameExcept_setRegFlag s x b f⟩
  simp only [List.mem_cons, List.not_mem_nil, or_false, not_or] at hr
  simp [State.setRegFlag_reg, hr]

/-- A fault raised in the execute phase is what `raised` says. -/
theorem raised_of_raise {code : FaultCode} {i : Instr} {s t : State} (h : raise code (encode i) s = .next t) :
    raised code i s t := by
  cases h
  exact ⟨rfl, rfl, rfl, sameExcept_latch s code _ _⟩

end Sys2Proof.Machine
end

