-- ==== Sys2Proof/Laws/Display.lean ====
section
/-! SUPPORT. The laws of drawing: what a plotted bit, a sprite row and a whole sprite do to each cell and to the
collision detector. -/

namespace Sys2Proof.Machine

/-- Flipping a cell changes that cell alone. -/
theorem Disp.cell_flip (d : Disp) (y x : Nat) {r c : Nat} (hr : r < 32) (hc : c < 64) :
    Disp.cell (Disp.flip d y x) r c = Bool.xor (Disp.cell d r c) (decide (r = y ∧ c = x)) := by
  simp only [Disp.cell, Disp.flip, Vector.getElem?_setIfInBounds]
  by_cases hy : y = r
  · subst hy
    simp [hr, hc, eq_comm]
  · simp [hy, Ne.symm hy]

/-- Displays with the same cells are equal. -/
theorem Disp.ext_cell {d d' : Disp} (h : ∀ r c, r < 32 → c < 64 → Disp.cell d r c = Disp.cell d' r c) : d = d' := by
  apply Vector.ext
  intro r hr
  apply BitVec.eq_of_getLsbD_eq
  intro c hc
  simpa [Disp.cell, hr] using h r c hr hc

/-- One plotted bit, in either mode, XORs a mask that does not depend on the canvas. -/
theorem Canvas.plot_mask (mode : EdgeMode) (y x : Nat) : ∃ m : Nat → Nat → Bool, ∀ (c : Canvas) (r k : Nat),
    r < 32 → k < 64 → Disp.cell (Canvas.plot mode c y x).disp r k = Bool.xor (Disp.cell c.disp r k) (m r k) := by
  cases mode with
  | clip =>
    by_cases h : y < 32 ∧ x < 64
    · exact ⟨fun r k => decide (r = y ∧ k = x), fun c r k hr hk => by
        simpa [Canvas.plot, h, Canvas.flip] using Disp.cell_flip c.disp y x hr hk⟩
    · exact ⟨fun _ _ => false, fun c r k _ _ => by simp [Canvas.plot, h]⟩
  | wrap =>
    exact ⟨fun r k => decide (r = y % 32 ∧ k = x % 64), fun c r k hr hk => by
      simpa [Canvas.plot, Canvas.flip] using Disp.cell_flip c.disp _ _ hr hk⟩

theorem Canvas.drawRow_mask (mode : EdgeMode) (y x0 : Nat) (b : Byte) : ∃ m : Nat → Nat → Bool,
    ∀ (c : Canvas) (r k : Nat), r < 32 → k < 64 →
      Disp.cell (Canvas.drawRow mode y x0 b c).disp r k = Bool.xor (Disp.cell c.disp r k) (m r k) := by
  unfold Canvas.drawRow
  generalize List.range 8 = ks
  induction ks with
  | nil => exact ⟨fun _ _ => false, fun c r k _ _ => by simp⟩
  | cons j ks ih =>
    obtain ⟨m, hm⟩ := ih
    obtain ⟨p, hp⟩ := Canvas.plot_mask mode y (x0 + j)
    by_cases hb : b.getLsbD (7 - j) = true
    · exact ⟨fun r k => Bool.xor (p r k) (m r k), fun c r k hr hk => by
        simp only [List.foldl_cons, hb, if_true]
        rw [hm _ r k hr hk, hp c r k hr hk, Bool.xor_assoc]⟩
    · exact ⟨m, fun c r k hr hk => by
        simp only [List.foldl_cons, hb]
        exact hm c r k hr hk⟩

/-- A whole sprite, in either mode, XORs a mask that does not depend on the canvas. -/
theorem Canvas.drawRows_mask (mode : EdgeMode) (x0 y : Nat) (bs : List Byte) : ∃ m : Nat → Nat → Bool,
    ∀ (c : Canvas) (r k : Nat), r < 32 → k < 64 →
      Disp.cell (Canvas.drawRows mode x0 y bs c).disp r k = Bool.xor (Disp.cell c.disp r k) (m r k) := by
  induction bs generalizing y with
  | nil => exact ⟨fun _ _ => false, fun c r k _ _ => by simp [Canvas.drawRows]⟩
  | cons b bs ih =>
    obtain ⟨m, hm⟩ := ih (y + 1)
    obtain ⟨p, hp⟩ := Canvas.drawRow_mask mode y x0 b
    exact ⟨fun r k => Bool.xor (p r k) (m r k), fun c r k hr hk => by
      rw [Canvas.drawRows, hm _ r k hr hk, hp c r k hr hk, Bool.xor_assoc]⟩

/-! ### Clipping -/

theorem Canvas.plot_clip_cell (c : Canvas) (y x : Nat) {r k : Nat} (hr : r < 32) (hk : k < 64) :
    Disp.cell (Canvas.plot .clip c y x).disp r k = Bool.xor (Disp.cell c.disp r k) (decide (r = y ∧ k = x)) := by
  by_cases h : y < 32 ∧ x < 64
  · simpa [Canvas.plot, h, Canvas.flip] using Disp.cell_flip c.disp y x hr hk
  · have : ¬(r = y ∧ k = x) := by omega
    simp [Canvas.plot, h, this]

theorem Canvas.plot_clip_coll (c : Canvas) (y x : Nat) :
    (Canvas.plot .clip c y x).coll = true ↔
      c.coll = true ∨ y < 32 ∧ x < 64 ∧ Disp.cell c.disp y x = true := by
  by_cases h : y < 32 ∧ x < 64
  · simp [Canvas.plot, h, Canvas.flip]
  · simp only [Canvas.plot, Config.dispH, Config.dispW, h, if_false]
    tauto

/-- A sprite row of which the first `m` bits have been drawn. -/
theorem Canvas.foldl_clip (y x0 : Nat) (b : Byte) (c : Canvas) (m : Nat) :
    (∀ r k, r < 32 → k < 64 →
      Disp.cell ((List.range m).foldl (fun acc j => if b.getLsbD (7 - j) then Canvas.plot .clip acc y (x0 + j) else acc) c).disp r k =
        Bool.xor (Disp.cell c.disp r k)
          (decide (r = y ∧ x0 ≤ k ∧ k < x0 + m) && b.getLsbD (7 - (k - x0)))) ∧
    (((List.range m).foldl (fun acc j => if b.getLsbD (7 - j) then Canvas.plot .clip acc y (x0 + j) else acc) c).coll = true ↔
      c.coll = true ∨ ∃ k, k < 64 ∧ y < 32 ∧ x0 ≤ k ∧ k < x0 + m ∧ b.getLsbD (7 - (k - x0)) = true ∧
        Disp.cell c.disp y k = true) := by
  induction m with
  | zero =>
    refine ⟨fun r k _ _ => ?_, ?_⟩
    · have : ¬(r = y ∧ x0 ≤ k ∧ k < x0 + 0) := by omega
      simp only [this, List.range_zero, List.foldl_nil, decide_false, Bool.false_and, Bool.xor_false]
    · simp only [List.range_zero, List.foldl_nil]
      constructor
      · exact .inl
      · rintro (h | ⟨k, _, _, h1, h2, _⟩)
        · exact h
        · omega
  | succ m ih =>
    obtain ⟨ihc, ihl⟩ := ih
    simp only [List.range_succ, List.foldl_append, List.foldl_cons, List.foldl_nil]
    generalize (List.range m).foldl (fun acc j => if b.getLsbD (7 - j) then Canvas.plot .clip acc y (x0 + j) else acc) c = a at *
    by_cases hb : b.getLsbD (7 - m) = true
    · simp only [hb, if_true]
      refine ⟨fun r k hr hk => ?_, ?_⟩
      · rw [Canvas.plot_clip_cell a y (x0 + m) hr hk, ihc r k hr hk, Bool.xor_assoc]
        congr 1
        by_cases hk' : k = x0 + m
        · subst hk'
          simp [hb]
        · have h1 : (r = y ∧ x0 ≤ k ∧ k < x0 + (m + 1)) ↔ (r = y ∧ x0 ≤ k ∧ k < x0 + m) := by omega
          simp [hk', h1]
      · rw [Canvas.plot_clip_coll, ihl]
        constructor
        · rintro ((h | ⟨k, h1, h2, h3, h4, h5, h6⟩) | ⟨h1, h2, h3⟩)
          · exact .inl h
          · exact .inr ⟨k, h1, h2, h3, by omega, h5, h6⟩
          · rw [ihc y (x0 + m) h1 h2] at h3
            have : ¬(y = y ∧ x0 ≤ x0 + m ∧ x0 + m < x0 + m) := by omega
            refine .inr ⟨x0 + m, h2, h1, by omega, by omega, by simpa using hb, ?_⟩
            simpa [this] using h3
        · rintro (h | ⟨k, h1, h2, h3, h4, h5, h6⟩)
          · exact .inl (.inl h)
          · by_cases hk' : k = x0 + m
            · subst hk'
              refine .inr ⟨h2, h1, ?_⟩
              rw [ihc y (x0 + m) h2 h1]
              have : ¬(y = y ∧ x0 ≤ x0 + m ∧ x0 + m < x0 + m) := by omega
              simpa [this] using h6
            · exact .inl (.inr ⟨k, h1, h2, h3, by omega, h5, h6⟩)
    · simp only [hb, Bool.false_eq_true, if_false]
      refine ⟨fun r k hr hk => ?_, ?_⟩
      · rw [ihc r k hr hk]
        congr 1
        by_cases hk' : k = x0 + m
        · subst hk'
          simp [hb]
        · have h1 : (r = y ∧ x0 ≤ k ∧ k < x0 + (m + 1)) ↔ (r = y ∧ x0 ≤ k ∧ k < x0 + m) := by omega
          simp [h1]
      · rw [ihl]
        constructor
        · rintro (h | ⟨k, h1, h2, h3, h4, h5, h6⟩)
          · exact .inl h
          · exact .inr ⟨k, h1, h2, h3, by omega, h5, h6⟩
        · rintro (h | ⟨k, h1, h2, h3, h4, h5, h6⟩)
          · exact .inl h
          · have : k ≠ x0 + m := by
              rintro rfl
              simp [hb] at h5
            exact .inr ⟨k, h1, h2, h3, by omega, h5, h6⟩

/-- What a clipped sprite covers: the cell of row `r` and column `k`. -/
def spriteCovers (x0 y0 : Nat) (bs : List Byte) (r k : Nat) : Bool :=
  decide (y0 ≤ r ∧ r < y0 + bs.length ∧ x0 ≤ k ∧ k < x0 + 8) && (bs.getD (r - y0) 0).getLsbD (7 - (k - x0))

theorem spriteCovers_cons (x0 y0 : Nat) (b : Byte) (bs : List Byte) (r k : Nat) :
    spriteCovers x0 y0 (b :: bs) r k =
      Bool.xor (decide (r = y0 ∧ x0 ≤ k ∧ k < x0 + 8) && b.getLsbD (7 - (k - x0))) (spriteCovers x0 (y0 + 1) bs r k) := by
  by_cases hr : r = y0
  · subst hr
    have : ¬(r + 1 ≤ r ∧ r < r + 1 + bs.length ∧ x0 ≤ k ∧ k < x0 + 8) := by omega
    simp [spriteCovers]
  · simp only [spriteCovers, hr, false_and, decide_false, Bool.false_and, Bool.false_xor, List.length_cons]
    by_cases h : y0 + 1 ≤ r
    · obtain ⟨j, rfl⟩ : ∃ j, r = y0 + 1 + j := ⟨r - (y0 + 1), by omega⟩
      have h1 : y0 + 1 + j - y0 = j + 1 := by omega
      have h2 : y0 + 1 + j - (y0 + 1) = j := by omega
      rw [h1, h2, List.getD_cons_succ]
      congr 2
      apply propext
      omega
    · have h1 : ¬(y0 ≤ r ∧ r < y0 + (bs.length + 1) ∧ x0 ≤ k ∧ k < x0 + 8) := by omega
      have h2 : ¬(y0 + 1 ≤ r ∧ r < y0 + 1 + bs.length ∧ x0 ≤ k ∧ k < x0 + 8) := by omega
      rw [decide_eq_false h1, decide_eq_false h2, Bool.false_and, Bool.false_and]

/-- A clipped sprite XORs the cells it covers, and collides exactly on a covered cell that was set. -/
theorem Canvas.drawRows_clip (x0 y0 : Nat) (bs : List Byte) (c : Canvas) :
    (∀ r k, r < 32 → k < 64 →
      Disp.cell (Canvas.drawRows .clip x0 y0 bs c).disp r k =
        Bool.xor (Disp.cell c.disp r k) (spriteCovers x0 y0 bs r k)) ∧
    ((Canvas.drawRows .clip x0 y0 bs c).coll = true ↔
      c.coll = true ∨ ∃ r k, r < 32 ∧ k < 64 ∧ Disp.cell c.disp r k = true ∧ spriteCovers x0 y0 bs r k = true) := by
  induction bs generalizing y0 c with
  | nil => simp [Canvas.drawRows, spriteCovers]
  | cons b bs ih =>
    obtain ⟨ihc, ihl⟩ := ih (y0 + 1) (Canvas.drawRow .clip y0 x0 b c)
    obtain ⟨hc, hl⟩ := Canvas.foldl_clip y0 x0 b c 8
    refine ⟨fun r k hr hk => ?_, ?_⟩
    · rw [Canvas.drawRows, ihc r k hr hk, Canvas.drawRow, hc r k hr hk, Bool.xor_assoc, spriteCovers_cons]
    · rw [Canvas.drawRows, ihl, Canvas.drawRow, hl]
      have hlow : ∀ r k, spriteCovers x0 (y0 + 1) bs r k = true → r ≠ y0 := by
        intro r k h
        simp only [spriteCovers, Bool.and_eq_true, decide_eq_true_eq] at h
        omega
      constructor
      · rintro ((h | ⟨k, h1, h2, h3, h4, h5, h6⟩) | ⟨r, k, h1, h2, h3, h4⟩)
        · exact .inl h
        · exact .inr ⟨y0, k, h2, h1, h6, by simp [spriteCovers, h3, h4, h5]⟩
        · have hne := hlow r k h4
          rw [hc r k h1 h2] at h3
          exact .inr ⟨r, k, h1, h2, by simpa [hne] using h3, by simp [spriteCovers_cons, h4, hne]⟩
      · rintro (h | ⟨r, k, h1, h2, h3, h4⟩)
        · exact .inl (.inl h)
        · by_cases hr : r = y0
          · subst hr
            have hn : spriteCovers x0 (r + 1) bs r k = false := by
              by_contra hcon
              exact hlow r k (by simpa using hcon) rfl
            rw [spriteCovers_cons, hn] at h4
            simp only [true_and, Bool.xor_false, Bool.and_eq_true, decide_eq_true_eq] at h4
            exact .inl (.inr ⟨k, h2, h1, h4.1.1, h4.1.2, h4.2, h3⟩)
          · refine .inr ⟨r, k, h1, h2, ?_, ?_⟩
            · rw [hc r k h1 h2]
              simpa [hr] using h3
            · simpa [spriteCovers_cons, hr] using h4

/-- The sprite of a state covers the cells `spriteBit` says. -/
theorem spriteCovers_eq_spriteBit (s : State) (x y : Reg) (n r k : Nat) :
    spriteCovers (s.startColumn x) (s.startRow y) (Memory.readList s.mem s.i.toNat n) r k = spriteBit s x y n r k := by
  simp only [spriteCovers, spriteBit, State.startColumn, State.startRow, Memory.readList_length, Config.dispW, Config.dispH,
    Bool.decide_and]
  by_cases h : (s.reg y).toNat % 32 ≤ r ∧ r < (s.reg y).toNat % 32 + n
  · have hb : r - (s.reg y).toNat % 32 < (Memory.readList s.mem s.i.toNat n).length := by
      rw [Memory.readList_length]
      omega
    rw [List.getD_eq_getElem _ _ hb, Memory.getElem_readList]
    simp [State.read, Bool.and_assoc]
  · rcases not_and_or.1 h with h | h <;> simp [h]

/-- A draw whose rows lie in memory completes. -/
theorem drawSprite_of_inRange {s : State} {n : Nat} (mode : EdgeMode) (x y : Reg) (h : n = 0 ∨ s.i.toNat + n - 1 ≤ 4095) :
    drawSprite mode x y n s =
      .next ({ s with disp := (s.drawn mode x y n).disp }.setReg VF (flagByte (s.drawn mode x y n).coll)) := by
  rw [drawSprite, if_pos ((State.dataInRange_iff s n).2 h)]

/-- A draw whose rows leave memory raises its fault. -/
theorem drawSprite_of_outOfRange {s : State} {n : Nat} (mode : EdgeMode) (x y : Reg)
    (h : ¬(n = 0 ∨ s.i.toNat + n - 1 ≤ 4095)) :
    drawSprite mode x y n s = raise .dataOutOfRange (encode (.drw x y n)) s := by
  rw [drawSprite, if_neg (mt (State.dataInRange_iff s n).1 h)]

end Sys2Proof.Machine
end

