-- ==== Sys2Proof/Laws/PerInstr.lean ====
section
/-! SUPPORT. A law for every instruction as syntax: the row of the opcode map that bears its mnemonic covers its word,
and builds the instruction back from the word's fields. -/

namespace Sys2Proof.Laws.RowOf

/-- The mnemonic of an instruction (R86, R96). -/
def mnemonic : Instr → String
  | .cls => "CLS"
  | .ret => "RET"
  | .jp _ => "JP"
  | .call _ => "CALL"
  | .seImm _ _ => "SE_IMM"
  | .sneImm _ _ => "SNE_IMM"
  | .seReg _ _ => "SE_REG"
  | .ldImm _ _ => "LD_IMM"
  | .addImm _ _ => "ADD_IMM"
  | .ldReg _ _ => "LD_REG"
  | .orReg _ _ => "OR"
  | .andReg _ _ => "AND"
  | .xorReg _ _ => "XOR"
  | .addReg _ _ => "ADD_REG"
  | .sub _ _ => "SUB"
  | .shr _ _ => "SHR"
  | .subn _ _ => "SUBN"
  | .shl _ _ => "SHL"
  | .sneReg _ _ => "SNE_REG"
  | .ldI _ => "LD_I"
  | .jpV0 _ => "JP_V0"
  | .rnd _ _ => "RND"
  | .drw _ _ _ => "DRW"
  | .skp _ => "SKP"
  | .sknp _ => "SKNP"
  | .ldVxDt _ => "LD_VX_DT"
  | .ldVxK _ => "LD_VX_K"
  | .ldDtVx _ => "LD_DT_VX"
  | .ldStVx _ => "LD_ST_VX"
  | .addI _ => "ADD_I"
  | .ldF _ => "LD_F"
  | .ldB _ => "LD_B"
  | .stRegs _ => "ST_REGS"
  | .ldRegs _ => "LD_REGS"

/-- The row at a place of the map bears the mnemonic, covers the word, and builds the instruction back. -/
def FitsRow (r : Row) (i : Instr) : Prop :=
  r.mnemonic = mnemonic i ∧ r.covers (encode i) = true ∧ (i.wellFormed = true → r.build (fieldsOf (encode i)) = i)

/-- Some row of the opcode map is the instruction's. -/
def Statement (i : Instr) : Prop := ∃ r ∈ opcodeMap, FitsRow r i

/-- A row given by its place. -/
theorem statement_of_place {i : Instr} (k : Fin opcodeMap.length) (h : FitsRow (opcodeMap.get k) i) : Statement i :=
  ⟨_, opcodeMap.get_mem k, h⟩

theorem cls : Statement .cls := statement_of_place ⟨0, by decide⟩ ⟨rfl, by decide, fun _ => rfl⟩
theorem ret : Statement .ret := statement_of_place ⟨1, by decide⟩ ⟨rfl, by decide, fun _ => rfl⟩

theorem and_or (a b c : Word) : (a ||| b) &&& c = a &&& c ||| b &&& c := by
  apply BitVec.eq_of_getLsbD_eq
  intro i _
  simp [Bool.and_or_distrib_right]

theorem jp (nnn : Nat) : Statement (.jp nnn) :=
  statement_of_place ⟨2, by decide⟩ ⟨rfl, by simp [Row.covers, opcodeMap, rowsLow, rowsEight, rowsHigh, rowsFifteen, encode, and_or], by
    intro h
    have hn : nnn < 4096 := by simpa [Instr.wellFormed, nnnFits] using h
    simp [opcodeMap, rowsLow, rowsEight, rowsHigh, rowsFifteen, encode, fieldsOf, BitVec.extractLsb'_or]
    omega⟩

theorem call (nnn : Nat) : Statement (.call nnn) :=
  statement_of_place ⟨3, by decide⟩ ⟨rfl, by simp [Row.covers, opcodeMap, rowsLow, rowsEight, rowsHigh, rowsFifteen, encode, and_or], by
    intro h
    have hn : nnn < 4096 := by simpa [Instr.wellFormed, nnnFits] using h
    simp [opcodeMap, rowsLow, rowsEight, rowsHigh, rowsFifteen, encode, fieldsOf, BitVec.extractLsb'_or]
    omega⟩

theorem seImm (x : Reg) (nn : Byte) : Statement (.seImm x nn) :=
  statement_of_place ⟨4, by decide⟩ ⟨rfl, by
    simp [Row.covers, opcodeMap, rowsLow, rowsEight, rowsHigh, rowsFifteen, encode, encodeXNN, and_or], by
    simp [opcodeMap, rowsLow, rowsEight, rowsHigh, rowsFifteen, encode, encodeXNN, fieldsOf, BitVec.extractLsb'_or]⟩

theorem sneImm (x : Reg) (nn : Byte) : Statement (.sneImm x nn) :=
  statement_of_place ⟨5, by decide⟩ ⟨rfl, by
    simp [Row.covers, opcodeMap, rowsLow, rowsEight, rowsHigh, rowsFifteen, encode, encodeXNN, and_or], by
    simp [opcodeMap, rowsLow, rowsEight, rowsHigh, rowsFifteen, encode, encodeXNN, fieldsOf, BitVec.extractLsb'_or]⟩

theorem seReg (x y : Reg) : Statement (.seReg x y) :=
  statement_of_place ⟨6, by decide⟩ ⟨rfl, by
    simp [Row.covers, opcodeMap, rowsLow, rowsEight, rowsHigh, rowsFifteen, encode, encodeXY, and_or], by
    simp [opcodeMap, rowsLow, rowsEight, rowsHigh, rowsFifteen, encode, encodeXY, fieldsOf, BitVec.extractLsb'_or]⟩

theorem ldImm (x : Reg) (nn : Byte) : Statement (.ldImm x nn) :=
  statement_of_place ⟨7, by decide⟩ ⟨rfl, by
    simp [Row.covers, opcodeMap, rowsLow, rowsEight, rowsHigh, rowsFifteen, encode, encodeXNN, and_or], by
    simp [opcodeMap, rowsLow, rowsEight, rowsHigh, rowsFifteen, encode, encodeXNN, fieldsOf, BitVec.extractLsb'_or]⟩

theorem addImm (x : Reg) (nn : Byte) : Statement (.addImm x nn) :=
  statement_of_place ⟨8, by decide⟩ ⟨rfl, by
    simp [Row.covers, opcodeMap, rowsLow, rowsEight, rowsHigh, rowsFifteen, encode, encodeXNN, and_or], by
    simp [opcodeMap, rowsLow, rowsEight, rowsHigh, rowsFifteen, encode, encodeXNN, fieldsOf, BitVec.extractLsb'_or]⟩

theorem ldReg (x y : Reg) : Statement (.ldReg x y) :=
  statement_of_place ⟨9, by decide⟩ ⟨rfl, by
    simp [Row.covers, opcodeMap, rowsLow, rowsEight, rowsHigh, rowsFifteen, encode, encodeXY, and_or], by
    simp [opcodeMap, rowsLow, rowsEight, rowsHigh, rowsFifteen, encode, encodeXY, fieldsOf, BitVec.extractLsb'_or]⟩

theorem orReg (x y : Reg) : Statement (.orReg x y) :=
  statement_of_place ⟨10, by decide⟩ ⟨rfl, by
    simp [Row.covers, opcodeMap, rowsLow, rowsEight, rowsHigh, rowsFifteen, encode, encodeXY, and_or], by
    simp [opcodeMap, rowsLow, rowsEight, rowsHigh, rowsFifteen, encode, encodeXY, fieldsOf, BitVec.extractLsb'_or]⟩

theorem andReg (x y : Reg) : Statement (.andReg x y) :=
  statement_of_place ⟨11, by decide⟩ ⟨rfl, by
    simp [Row.covers, opcodeMap, rowsLow, rowsEight, rowsHigh, rowsFifteen, encode, encodeXY, and_or], by
    simp [opcodeMap, rowsLow, rowsEight, rowsHigh, rowsFifteen, encode, encodeXY, fieldsOf, BitVec.extractLsb'_or]⟩

theorem xorReg (x y : Reg) : Statement (.xorReg x y) :=
  statement_of_place ⟨12, by decide⟩ ⟨rfl, by
    simp [Row.covers, opcodeMap, rowsLow, rowsEight, rowsHigh, rowsFifteen, encode, encodeXY, and_or], by
    simp [opcodeMap, rowsLow, rowsEight, rowsHigh, rowsFifteen, encode, encodeXY, fieldsOf, BitVec.extractLsb'_or]⟩

theorem addReg (x y : Reg) : Statement (.addReg x y) :=
  statement_of_place ⟨13, by decide⟩ ⟨rfl, by
    simp [Row.covers, opcodeMap, rowsLow, rowsEight, rowsHigh, rowsFifteen, encode, encodeXY, and_or], by
    simp [opcodeMap, rowsLow, rowsEight, rowsHigh, rowsFifteen, encode, encodeXY, fieldsOf, BitVec.extractLsb'_or]⟩

theorem sub (x y : Reg) : Statement (.sub x y) :=
  statement_of_place ⟨14, by decide⟩ ⟨rfl, by
    simp [Row.covers, opcodeMap, rowsLow, rowsEight, rowsHigh, rowsFifteen, encode, encodeXY, and_or], by
    simp [opcodeMap, rowsLow, rowsEight, rowsHigh, rowsFifteen, encode, encodeXY, fieldsOf, BitVec.extractLsb'_or]⟩

theorem shr (x y : Reg) : Statement (.shr x y) :=
  statement_of_place ⟨15, by decide⟩ ⟨rfl, by
    simp [Row.covers, opcodeMap, rowsLow, rowsEight, rowsHigh, rowsFifteen, encode, encodeXY, and_or], by
    simp [opcodeMap, rowsLow, rowsEight, rowsHigh, rowsFifteen, encode, encodeXY, fieldsOf, BitVec.extractLsb'_or]⟩

theorem subn (x y : Reg) : Statement (.subn x y) :=
  statement_of_place ⟨16, by decide⟩ ⟨rfl, by
    simp [Row.covers, opcodeMap, rowsLow, rowsEight, rowsHigh, rowsFifteen, encode, encodeXY, and_or], by
    simp [opcodeMap, rowsLow, rowsEight, rowsHigh, rowsFifteen, encode, encodeXY, fieldsOf, BitVec.extractLsb'_or]⟩

theorem shl (x y : Reg) : Statement (.shl x y) :=
  statement_of_place ⟨17, by decide⟩ ⟨rfl, by
    simp [Row.covers, opcodeMap, rowsLow, rowsEight, rowsHigh, rowsFifteen, encode, encodeXY, and_or], by
    simp [opcodeMap, rowsLow, rowsEight, rowsHigh, rowsFifteen, encode, encodeXY, fieldsOf, BitVec.extractLsb'_or]⟩

theorem sneReg (x y : Reg) : Statement (.sneReg x y) :=
  statement_of_place ⟨18, by decide⟩ ⟨rfl, by
    simp [Row.covers, opcodeMap, rowsLow, rowsEight, rowsHigh, rowsFifteen, encode, encodeXY, and_or], by
    simp [opcodeMap, rowsLow, rowsEight, rowsHigh, rowsFifteen, encode, encodeXY, fieldsOf, BitVec.extractLsb'_or]⟩

theorem ldI (nnn : Nat) : Statement (.ldI nnn) :=
  statement_of_place ⟨19, by decide⟩ ⟨rfl, by simp [Row.covers, opcodeMap, rowsLow, rowsEight, rowsHigh, rowsFifteen, encode, and_or], by
    intro h
    have hn : nnn < 4096 := by simpa [Instr.wellFormed, nnnFits] using h
    simp [opcodeMap, rowsLow, rowsEight, rowsHigh, rowsFifteen, encode, fieldsOf, BitVec.extractLsb'_or]
    omega⟩

theorem jpV0 (nnn : Nat) : Statement (.jpV0 nnn) :=
  statement_of_place ⟨20, by decide⟩ ⟨rfl, by simp [Row.covers, opcodeMap, rowsLow, rowsEight, rowsHigh, rowsFifteen, encode, and_or], by
    intro h
    have hn : nnn < 4096 := by simpa [Instr.wellFormed, nnnFits] using h
    simp [opcodeMap, rowsLow, rowsEight, rowsHigh, rowsFifteen, encode, fieldsOf, BitVec.extractLsb'_or]
    omega⟩

theorem rnd (x : Reg) (nn : Byte) : Statement (.rnd x nn) :=
  statement_of_place ⟨21, by decide⟩ ⟨rfl, by
    simp [Row.covers, opcodeMap, rowsLow, rowsEight, rowsHigh, rowsFifteen, encode, encodeXNN, and_or], by
    simp [opcodeMap, rowsLow, rowsEight, rowsHigh, rowsFifteen, encode, encodeXNN, fieldsOf, BitVec.extractLsb'_or]⟩

theorem drw (x y : Reg) (n : Nat) : Statement (.drw x y n) :=
  statement_of_place ⟨22, by decide⟩ ⟨rfl, by
    simp [Row.covers, opcodeMap, rowsLow, rowsEight, rowsHigh, rowsFifteen, encode, encodeXY, and_or], by
    intro h
    have hn : n < 16 := by simpa [Instr.wellFormed, heightFits] using h
    simp [opcodeMap, rowsLow, rowsEight, rowsHigh, rowsFifteen, encode, encodeXY, fieldsOf, BitVec.extractLsb'_or]
    omega⟩

theorem skp (x : Reg) : Statement (.skp x) :=
  statement_of_place ⟨23, by decide⟩ ⟨rfl, by
    simp [Row.covers, opcodeMap, rowsLow, rowsEight, rowsHigh, rowsFifteen, encode, and_or], by
    simp [opcodeMap, rowsLow, rowsEight, rowsHigh, rowsFifteen, encode, fieldsOf, BitVec.extractLsb'_or]⟩

theorem sknp (x : Reg) : Statement (.sknp x) :=
  statement_of_place ⟨24, by decide⟩ ⟨rfl, by
    simp [Row.covers, opcodeMap, rowsLow, rowsEight, rowsHigh, rowsFifteen, encode, and_or], by
    simp [opcodeMap, rowsLow, rowsEight, rowsHigh, rowsFifteen, encode, fieldsOf, BitVec.extractLsb'_or]⟩

theorem ldVxDt (x : Reg) : Statement (.ldVxDt x) :=
  statement_of_place ⟨25, by decide⟩ ⟨rfl, by
    simp [Row.covers, opcodeMap, rowsLow, rowsEight, rowsHigh, rowsFifteen, encode, and_or], by
    simp [opcodeMap, rowsLow, rowsEight, rowsHigh, rowsFifteen, encode, fieldsOf, BitVec.extractLsb'_or]⟩

theorem ldVxK (x : Reg) : Statement (.ldVxK x) :=
  statement_of_place ⟨26, by decide⟩ ⟨rfl, by
    simp [Row.covers, opcodeMap, rowsLow, rowsEight, rowsHigh, rowsFifteen, encode, and_or], by
    simp [opcodeMap, rowsLow, rowsEight, rowsHigh, rowsFifteen, encode, fieldsOf, BitVec.extractLsb'_or]⟩

theorem ldDtVx (x : Reg) : Statement (.ldDtVx x) :=
  statement_of_place ⟨27, by decide⟩ ⟨rfl, by
    simp [Row.covers, opcodeMap, rowsLow, rowsEight, rowsHigh, rowsFifteen, encode, and_or], by
    simp [opcodeMap, rowsLow, rowsEight, rowsHigh, rowsFifteen, encode, fieldsOf, BitVec.extractLsb'_or]⟩

theorem ldStVx (x : Reg) : Statement (.ldStVx x) :=
  statement_of_place ⟨28, by decide⟩ ⟨rfl, by
    simp [Row.covers, opcodeMap, rowsLow, rowsEight, rowsHigh, rowsFifteen, encode, and_or], by
    simp [opcodeMap, rowsLow, rowsEight, rowsHigh, rowsFifteen, encode, fieldsOf, BitVec.extractLsb'_or]⟩

theorem addI (x : Reg) : Statement (.addI x) :=
  statement_of_place ⟨29, by decide⟩ ⟨rfl, by
    simp [Row.covers, opcodeMap, rowsLow, rowsEight, rowsHigh, rowsFifteen, encode, and_or], by
    simp [opcodeMap, rowsLow, rowsEight, rowsHigh, rowsFifteen, encode, fieldsOf, BitVec.extractLsb'_or]⟩

theorem ldF (x : Reg) : Statement (.ldF x) :=
  statement_of_place ⟨30, by decide⟩ ⟨rfl, by
    simp [Row.covers, opcodeMap, rowsLow, rowsEight, rowsHigh, rowsFifteen, encode, and_or], by
    simp [opcodeMap, rowsLow, rowsEight, rowsHigh, rowsFifteen, encode, fieldsOf, BitVec.extractLsb'_or]⟩

theorem ldB (x : Reg) : Statement (.ldB x) :=
  statement_of_place ⟨31, by decide⟩ ⟨rfl, by
    simp [Row.covers, opcodeMap, rowsLow, rowsEight, rowsHigh, rowsFifteen, encode, and_or], by
    simp [opcodeMap, rowsLow, rowsEight, rowsHigh, rowsFifteen, encode, fieldsOf, BitVec.extractLsb'_or]⟩

theorem stRegs (x : Reg) : Statement (.stRegs x) :=
  statement_of_place ⟨32, by decide⟩ ⟨rfl, by
    simp [Row.covers, opcodeMap, rowsLow, rowsEight, rowsHigh, rowsFifteen, encode, and_or], by
    simp [opcodeMap, rowsLow, rowsEight, rowsHigh, rowsFifteen, encode, fieldsOf, BitVec.extractLsb'_or]⟩

theorem ldRegs (x : Reg) : Statement (.ldRegs x) :=
  statement_of_place ⟨33, by decide⟩ ⟨rfl, by
    simp [Row.covers, opcodeMap, rowsLow, rowsEight, rowsHigh, rowsFifteen, encode, and_or], by
    simp [opcodeMap, rowsLow, rowsEight, rowsHigh, rowsFifteen, encode, fieldsOf, BitVec.extractLsb'_or]⟩

end Sys2Proof.Laws.RowOf
end

