-- ==== Sys2Proof/Laws/Step.lean ====
section
/-! SUPPORT. Everything a step can do, said once. -/

namespace Sys2Proof.Machine

/-- The four cases of a step: ignored, a fetch fault, an instruction, a word that matches none. -/
theorem step_cases {s t : State} (h : step s = .next t) :
    (s.active = false ∧ t = s) ∨
    (s.active = true ∧ s.fetchable = false ∧ t = s.latch .fetchOutOfRange s.pc 0) ∨
    (s.active = true ∧ s.fetchable = true ∧ ∃ i, decodeWord s.fetchWord = some i ∧ exec i s.advance = .next t) ∨
    (s.active = true ∧ s.fetchable = true ∧ decodeWord s.fetchWord = none ∧
      unimplemented s.fetchWord s.advance = .next t) := by
  unfold step at h
  by_cases ha : s.active = true
  · by_cases hf : s.fetchable = true
    · rw [if_pos ha, if_pos hf] at h
      cases hd : decodeWord s.fetchWord with
      | some i => exact .inr (.inr (.inl ⟨ha, hf, i, rfl, by rw [hd] at h; exact h⟩))
      | none => exact .inr (.inr (.inr ⟨ha, hf, rfl, by rw [hd] at h; exact h⟩))
    · rw [if_pos ha, if_neg hf] at h
      cases h
      exact .inr (.inl ⟨ha, by simpa using hf, rfl⟩)
  · rw [if_neg ha] at h
    cases h
    exact .inl ⟨by simpa using ha, rfl⟩

theorem step_of_not_active {s : State} (h : s.active = false) : step s = .next s := by simp [step, h]

theorem step_of_not_fetchable {s : State} (ha : s.active = true) (hf : s.fetchable = false) :
    step s = .next (s.latch .fetchOutOfRange s.pc 0) := by simp [step, ha, hf, raiseFetch]

theorem step_of_decode {s : State} {i : Instr} (ha : s.active = true) (hf : s.fetchable = true)
    (hd : decodeWord s.fetchWord = some i) : step s = exec i s.advance := by simp [step, ha, hf, hd]

theorem step_of_unimplemented {s : State} (ha : s.active = true) (hf : s.fetchable = true)
    (hd : decodeWord s.fetchWord = none) : step s = unimplemented s.fetchWord s.advance := by simp [step, ha, hf, hd]

/-- The two things an unimplemented word can do. -/
theorem unimplemented_cases {w : Word} {s t : State} (h : unimplemented w s = .next t) :
    (Config.unimplPolicy = .skipReport ∧ t = s) ∨
    (Config.unimplPolicy = .fatal ∧ t = s.latch .unimplementedOpcode (s.pc - 2) w) := by
  unfold unimplemented at h
  split at h
  · cases h
    exact .inl ⟨‹_›, rfl⟩
  · cases h
    exact .inr ⟨‹_›, rfl⟩

end Sys2Proof.Machine
end

