-- ==== Sys2Proof/Tests/Slice0.lean ====
section
/-! SUPPORT. The model's own tests. Words are written out from the encodings of R86; expected results are the vectors
of 95_test_vectors.md (their ids stand beside the tests). -/

namespace Sys2Proof.Tests

open Sys2Proof.Machine

/-! ### Well-formedness: each check refuses an ill-formed term -/

theorem test_wellFormed_address_13_bits : (Instr.jp 4096).wellFormed = false := by decide
theorem test_wellFormed_call_address_13_bits : (Instr.call 0x1234).wellFormed = false := by decide
theorem test_wellFormed_index_address_13_bits : (Instr.ldI 4096).wellFormed = false := by decide
theorem test_wellFormed_offset_address_13_bits : (Instr.jpV0 9999).wellFormed = false := by decide
theorem test_wellFormed_height_16 : (Instr.drw 1 2 16).wellFormed = false := by decide
theorem test_wellFormed_bounds : (Instr.jp 4095).wellFormed = true ∧ (Instr.drw 15 15 15).wellFormed = true := by decide

/-! ### Decoding: one word per row of R86, its bits written out from the row -/

theorem test_decode_fixed : decodeWord 0b0000000011100000 = some .cls ∧ decodeWord 0b0000000011101110 = some .ret := by
  decide

theorem test_decode_address :
    decodeWord 0b0001_0010_0000_1000 = some (.jp 0x208) ∧ decodeWord 0b0010_1111_1111_1110 = some (.call 0xFFE) ∧
    decodeWord 0b1010_0011_0000_0001 = some (.ldI 0x301) ∧ decodeWord 0b1011_1000_0000_0100 = some (.jpV0 0x804) := by
  decide

theorem test_decode_byte :
    decodeWord 0b0011_0101_1010_0001 = some (.seImm 5 0xA1) ∧ decodeWord 0b0100_0011_0001_0000 = some (.sneImm 3 0x10) ∧
    decodeWord 0b0110_1111_1010_1011 = some (.ldImm 15 0xAB) ∧ decodeWord 0b0111_0001_0000_0101 = some (.addImm 1 5) ∧
    decodeWord 0b1100_0011_0000_1111 = some (.rnd 3 0x0F) := by decide

theorem test_decode_two_registers :
    decodeWord 0b0101_0001_0010_0000 = some (.seReg 1 2) ∧ decodeWord 0b1001_1010_0010_0000 = some (.sneReg 10 2) ∧
    decodeWord 0b1000_0001_0010_0000 = some (.ldReg 1 2) ∧ decodeWord 0b1000_0011_0100_0001 = some (.orReg 3 4) ∧
    decodeWord 0b1000_0101_0110_0010 = some (.andReg 5 6) ∧ decodeWord 0b1000_0111_1000_0011 = some (.xorReg 7 8) := by
  decide

theorem test_decode_flag_writers :
    decodeWord 0b1000_1001_1010_0100 = some (.addReg 9 10) ∧ decodeWord 0b1000_1011_1100_0101 = some (.sub 11 12) ∧
    decodeWord 0b1000_1101_1110_0110 = some (.shr 13 14) ∧ decodeWord 0b1000_1111_0000_0111 = some (.subn 15 0) ∧
    decodeWord 0b1000_0001_0010_1110 = some (.shl 1 2) := by decide

theorem test_decode_draw : decodeWord 0b1101_0001_0010_0101 = some (.drw 1 2 5) := by decide

theorem test_decode_keypad_timers :
    decodeWord 0b1110_0011_1001_1110 = some (.skp 3) ∧ decodeWord 0b1110_0100_1010_0001 = some (.sknp 4) ∧
    decodeWord 0b1111_0010_0000_0111 = some (.ldVxDt 2) ∧ decodeWord 0b1111_0011_0000_1010 = some (.ldVxK 3) ∧
    decodeWord 0b1111_0001_0001_0101 = some (.ldDtVx 1) ∧ decodeWord 0b1111_1010_0001_1000 = some (.ldStVx 10) := by
  decide

theorem test_decode_index_memory :
    decodeWord 0b1111_0010_0001_1110 = some (.addI 2) ∧ decodeWord 0b1111_0101_0010_1001 = some (.ldF 5) ∧
    decodeWord 0b1111_0110_0011_0011 = some (.ldB 6) ∧ decodeWord 0b1111_0111_0101_0101 = some (.stRegs 7) ∧
    decodeWord 0b1111_1000_0110_0101 = some (.ldRegs 8) := by decide

/-- The words U-1 to U-10 match nothing. -/
theorem test_decode_unimplemented :
    ([0x0000, 0x00E1, 0x01E0, 0x02EE, 0x0123, 0x5121, 0x512F, 0x8008, 0x800D, 0x801F, 0x9121, 0xE000, 0xE19F, 0xE0A2,
      0xF000, 0xF0FF, 0xF175, 0xF11F] : List Word).all (fun w => decodeWord w == none) = true := by decide

theorem test_decode_bytes_big_endian : decode [0x60, 0xAB, 0x12] = .ok (.ldImm 0 0xAB, [0x12]) := by decide

theorem test_decode_rejects_by_name :
    decode [0x60] = .error .truncated ∧ decode [0x01, 0x23] = .error (.unimplementedOpcode 0x0123) := by decide

theorem test_decode_table_word : decodeTableWord 16 0x8126 = some (.shr 1 2) := by decide

/-! ### One step on a small state -/

/-- The state after a `LOAD` of one instruction word, before its step. -/
def at200 (w : Nat) : State := State.reset.withFetchWord 16 w

/-- A step answers a next state for which a check holds. -/
def leaves (s : State) (check : State → Bool) : Bool :=
  match step s with
  | .next t => check t
  | .fault _ => false
  | .refused _ => false

/-- A byte stored in memory. -/
def poke (s : State) (a : Nat) (b : Byte) : State := { s with mem := Memory.write s.mem a b }

-- T1, T2
theorem test_ret : leaves ((at200 0x00EE).push 0x0208) (fun t => t.pc == 0x0208 && t.sp == 0 && t.stack 0 == 0x0208) = true := by
  decide
theorem test_ret_underflow : leaves (at200 0x00EE) (fun t => t.pc == 0x0202 && t.faultPort == (2, 0x0200, 0x00EE)) = true := by
  decide
-- T5
theorem test_jp : leaves (at200 0x1FFF) (fun t => t.pc == 0x0FFF && t.fault == .none) = true := by decide
-- T6 at 0x200, T7
theorem test_call : leaves (at200 0x220E) (fun t => t.pc == 0x020E && t.sp == 1 && t.stack 0 == 0x0202) = true := by decide
theorem test_call_overflow :
    leaves { at200 0x2300 with sp := 16 } (fun t => t.pc == 0x0202 && t.sp == 16 && t.faultPort == (1, 0x0200, 0x2300)) = true := by
  decide
-- T10
theorem test_jpV0 : leaves ((at200 0xBFFF).setReg 0 0xFF) (fun t => t.pc == 0x10FE) = true := by decide
-- T13, T15, T17, T19
theorem test_seImm : leaves ((at200 0x3F01).setReg 15 1) (fun t => t.pc == 0x0204) = true := by decide
theorem test_sneImm : leaves ((at200 0x4310).setReg 3 0x10) (fun t => t.pc == 0x0202) = true := by decide
theorem test_seReg : leaves (((at200 0x5120).setReg 1 7).setReg 2 8) (fun t => t.pc == 0x0202) = true := by decide
theorem test_sneReg : leaves (((at200 0x9120).setReg 1 7).setReg 2 8) (fun t => t.pc == 0x0204) = true := by decide
-- A2, A4, A6, A7, A8, A9
theorem test_ldImm : leaves (at200 0x6FAB) (fun t => t.reg 15 == 0xAB && t.pc == 0x0202) = true := by decide
theorem test_addImm : leaves ((at200 0x7105).setReg 1 0xFE) (fun t => t.reg 1 == 3 && t.reg VF == 0) = true := by decide
theorem test_ldReg : leaves ((at200 0x8120).setReg 2 0xAB) (fun t => t.reg 1 == 0xAB && t.reg 2 == 0xAB) = true := by decide
theorem test_orReg :
    leaves ((((at200 0x8011).setReg 0 0xF0).setReg 1 0x0F).setReg 15 1) (fun t => t.reg 0 == 0xFF && t.reg VF == 1) = true := by
  decide
theorem test_andReg : leaves (((at200 0x8012).setReg 0 0xF0).setReg 1 0x3C) (fun t => t.reg 0 == 0x30) = true := by decide
theorem test_xorReg : leaves (((at200 0x8013).setReg 0 0xF0).setReg 1 0x3C) (fun t => t.reg 0 == 0xCC) = true := by decide
-- A12, A18
theorem test_addReg : leaves (((at200 0x8014).setReg 0 0xFF).setReg 1 2) (fun t => t.reg 0 == 1 && t.reg VF == 1) = true := by decide
theorem test_addReg_flag_last : leaves (((at200 0x8F14).setReg 15 0x10).setReg 1 0x20) (fun t => t.reg VF == 0) = true := by decide
-- A23, A27
theorem test_sub_equal : leaves (((at200 0x8015).setReg 0 7).setReg 1 7) (fun t => t.reg 0 == 0 && t.reg VF == 1) = true := by decide
theorem test_sub_old_flag : leaves (((at200 0x80F5).setReg 0 5).setReg 15 1) (fun t => t.reg 0 == 4 && t.reg VF == 1) = true := by decide
-- A30, A31
theorem test_shr :
    leaves (((at200 0x8126).setReg 1 0x80).setReg 2 0x55) (fun t => t.reg 1 == 0x40 && t.reg VF == 0 && t.reg 2 == 0x55) = true := by
  decide
theorem test_shr_flag : leaves ((at200 0x8F06).setReg 15 3) (fun t => t.reg VF == 1) = true := by decide
-- A35, A38
theorem test_subn : leaves (((at200 0x8017).setReg 0 2).setReg 1 1) (fun t => t.reg 0 == 0xFF && t.reg VF == 0) = true := by decide
theorem test_subn_flag : leaves (((at200 0x8F17).setReg 15 5).setReg 1 3) (fun t => t.reg VF == 0) = true := by decide
-- A41, A43
theorem test_shl : leaves (((at200 0x810E).setReg 1 0x41).setReg 15 1) (fun t => t.reg 1 == 0x82 && t.reg VF == 0) = true := by decide
theorem test_shl_flag : leaves ((at200 0x8F0E).setReg 15 0x80) (fun t => t.reg VF == 1) = true := by decide
-- A46
theorem test_rnd : leaves { at200 0xC30F with rndIn := some 0xA7 } (fun t => t.reg 3 == 7 && t.reg VF == 0) = true := by decide
-- M2, M4, M5, M7
theorem test_ldI : leaves (at200 0xAFFF) (fun t => t.i == 0x0FFF) = true := by decide
theorem test_addI : leaves ({ at200 0xF01E with i := 0x0FFF }.setReg 0 1) (fun t => t.i == 0x1000 && t.reg VF == 0) = true := by decide
theorem test_addI_wraps : leaves ({ at200 0xF01E with i := 0xFFFF }.setReg 0 2) (fun t => t.i == 1) = true := by decide
theorem test_ldF : leaves ((at200 0xF029).setReg 0 0xFF) (fun t => t.i == 0x04FB) = true := by decide
-- M9, M13
theorem test_ldB :
    leaves ({ at200 0xF033 with i := 0x300 }.setReg 0 156) (fun t => t.read 0x300 == 1 && t.read 0x301 == 5 && t.read 0x302 == 6) = true := by
  decide
theorem test_ldB_out_of_range :
    leaves ({ at200 0xF033 with i := 0xFFE }.setReg 0 123)
      (fun t => t.read 0xFFE == 0 && t.pc == 0x0202 && t.faultPort == (5, 0x0200, 0xF033)) = true := by decide
-- M14, M16
theorem test_stRegs :
    leaves ((((({ at200 0xF255 with i := 0x300 }.setReg 0 1).setReg 1 5).setReg 2 6).setReg 3 9))
      (fun t => t.read 0x300 == 1 && t.read 0x302 == 6 && t.read 0x303 == 0 && t.i == 0x300) = true := by decide
theorem test_stRegs_out_of_range :
    leaves ({ at200 0xF155 with i := 0xFFF }.setReg 0 0x77) (fun t => t.read 0xFFF == 0 && t.faultPort == (5, 0x0200, 0xF155)) = true := by
  decide
-- M19, M21
theorem test_ldRegs_font : leaves (at200 0xFF65) (fun t => t.reg 0 == 0xF0 && t.reg 6 == 0x60 && t.reg 13 == 0x80 && t.reg 15 == 0xF0) = true := by
  decide
theorem test_ldRegs_out_of_range :
    leaves { at200 0xF065 with i := 0x1000 } (fun t => t.reg 0 == 0 && t.faultPort == (5, 0x0200, 0xF065)) = true := by decide
-- DS1
theorem test_cls :
    leaves { at200 0x00E0 with disp := Disp.flip (Disp.flip blankDisp 5 7) 31 63 } (fun t => t.disp == blankDisp) = true := by decide
-- DS15, DS14
theorem test_drw_clips :
    leaves (({ at200 0xD125 with i := 0x19 }.setReg 1 62).setReg 2 30)
      (fun t => t.disp == Disp.flip (Disp.flip (Disp.flip blankDisp 30 62) 30 63) 31 62 && t.reg VF == 0) = true := by decide
theorem test_drw_collides :
    leaves { poke (at200 0xD011) 0x300 0xC0 with i := 0x300, disp := Disp.flip blankDisp 0 1 }
      (fun t => t.disp == Disp.flip blankDisp 0 0 && t.reg VF == 1) = true := by decide
-- DS6w: the other edge mode
theorem test_drawSprite_wraps :
    (match drawSprite .wrap 0 1 2 ({ poke (poke (at200 0xD012) 0x300 0xC0) 0x301 0xC0 with i := 0x300 }.setReg 1 31) with
      | .next t => t.disp == Disp.flip (Disp.flip (Disp.flip (Disp.flip blankDisp 31 0) 31 1) 0 0) 0 1
      | .fault _ => false
      | .refused _ => false) = true := by decide
-- K2, K6
theorem test_skp : leaves ({ at200 0xE39E with keys := 0xFF7F }.setReg 3 7) (fun t => t.pc == 0x0202) = true := by decide
theorem test_skp_index : leaves ((at200 0xE09E).setReg 0 16) (fun t => t.pc == 0x0202 && t.faultPort == (6, 0x0200, 0xE09E)) = true := by
  decide
-- K3, K7
theorem test_sknp : leaves ((at200 0xE3A1).setReg 3 7) (fun t => t.pc == 0x0204) = true := by decide
theorem test_sknp_index : leaves ((at200 0xE0A1).setReg 0 0xFF) (fun t => t.faultPort == (6, 0x0200, 0xE0A1)) = true := by decide
-- K8, K9
theorem test_ldVxK_waits : leaves ((at200 0xF30A).setReg 3 0x55) (fun t => t == (at200 0xF30A).setReg 3 0x55) = true := by decide
theorem test_ldVxK : leaves { at200 0xF30A with keys := 0x0080 } (fun t => t.reg 3 == 7 && t.pc == 0x0202) = true := by decide
-- K12, K14, K15
theorem test_ldVxDt : leaves { at200 0xF207 with dt := 14 } (fun t => t.reg 2 == 14 && t.dt == 14) = true := by decide
theorem test_ldDtVx : leaves { at200 0xF015 with dt := 9 } (fun t => t.dt == 0 && t.pc == 0x0202) = true := by decide
theorem test_ldStVx : leaves ((at200 0xFA18).setReg 10 0xFF) (fun t => t.st == 0xFF) = true := by decide
theorem test_ldStVx_tone : cycleResult ((at200 0xFA18).setReg 10 0xFF) = ⟨.ok, false, true⟩ := by decide

/-! ### Fetch, gate, events -/

-- F1, F4
theorem test_fetch_last : leaves { poke (poke (at200 0) 0xFFE 0x60) 0xFFF 1 with pc := 0xFFE } (fun t => t.reg 0 == 1 && t.pc == 0x1000) = true := by
  decide
theorem test_fetch_out_of_range : leaves { at200 0 with pc := 0xFFF } (fun t => t.pc == 0xFFF && t.faultPort == (4, 0xFFF, 0)) = true := by
  decide
-- X6
theorem test_paused_ignored : leaves { at200 0x6FAB with runState := .paused } (fun t => t == { at200 0x6FAB with runState := .paused }) = true := by
  decide
-- X1, X4, X5
theorem test_tick : tick { at200 0 with dt := 2, st := 1 } = { at200 0 with dt := 1, st := 0 } ∧
    tickResult { at200 0 with dt := 2, st := 1 } = ⟨false, true⟩ := by decide
theorem test_tick_paused : tickResult { at200 0 with st := 5, runState := .paused } = ⟨true, false⟩ := by decide
-- R44 to the letter: Paused is left without a LOAD (log entry 23)
theorem test_running_after_reset : (setRunState .running (resetEvent State.reset)).active = true ∧
    (setRunState .running (resetEvent State.reset)).fetchWord = 0 := by decide
-- X7, X11
theorem test_halted_terminal : (setRunState .running { at200 0 with runState := .halted }).runState = .halted := by decide
-- L6, L4
theorem test_load : (loadEvent [0x60, 0xAB, 0x61] State.reset).mem = [(0x200, 0x60), (0x201, 0xAB), (0x202, 0x61)] ∧
    (loadEvent [0x60, 0xAB, 0x61] State.reset).runState = .running := by decide
theorem test_load_too_long : loadEvent (List.replicate 3585 1) { State.reset with sp := 3 } = State.reset := by decide +kernel

/-! ### Witnesses: for each statement with hypotheses, operands and states that meet all of them, at the boundaries -/

/-- The instruction leaves a next state without a fault. -/
def completes (i : Instr) (s : State) : Bool :=
  match exec i s with
  | .next t => t.fault == .none
  | .fault _ => false
  | .refused _ => false

/-- The answer is that next state. -/
def answers (r : Result) (t : State) : Bool :=
  match r with
  | .next u => u == t
  | .fault _ => false
  | .refused _ => false

theorem next_of_answers {r : Result} {t : State} (h : answers r t = true) : r = .next t := by
  cases r <;> simp_all [answers]

/-- A state with an index register. -/
def withI (w : Word) : State := { State.reset with i := w }

theorem witness_EncodedInstructionsDecodeBack :
    ([.jp 0, .jp 4095, .drw 0 0 0, .drw 15 15 15, .rnd 15 0xFF] : List Instr).all (fun i => i.wellFormed) = true := by decide

theorem witness_DecodedWordsEncodeBack :
    decodeWord 0x1000 = some (.jp 0) ∧ decodeWord 0xDFFF = some (.drw 15 15 15) ∧ decodeWord 0x8FF6 = some (.shr 15 15) := by
  decide

theorem witness_NoTwoOpcodeRowsOverlap : (opcodeMap.get ⟨33, by decide⟩).covers 0xFF65 = true := by decide

theorem witness_UnimplementedWordsAreTheSixClasses :
    ([0x0000, 0x0FFF, 0x5001, 0x8008, 0x800F, 0x9FFF, 0xE09D, 0xFFFF] : List Word).all (fun w => decodeWord w == none) = true := by
  decide

theorem witness_RandomByteIsMasked : { State.reset with rndIn := some 0xFF }.rndIn = some 0xFF ∧ State.reset.rndIn = none := by
  decide

theorem witness_FlagIsZeroOrOneAfterFlagWriters :
    ([.addReg 15 1, .sub 1 15, .shr 15 15, .subn 15 15, .shl 1 2, .drw 15 15 0] : List Instr).all
      (fun i => completes i State.reset) = true := by decide

theorem witness_JumpGoesToItsAddress : (Instr.jp 0).wellFormed = true ∧ (Instr.jp 4095).wellFormed = true := by decide

theorem witness_OffsetJumpAddsV0 : (Instr.jpV0 0).wellFormed = true ∧ (Instr.jpV0 4095).wellFormed = true := by decide

theorem witness_CallPushesTheReturnAddress :
    (Instr.call 4095).wellFormed = true ∧ State.reset.sp < 16 ∧ { State.reset with sp := 15 }.sp < 16 := by decide

theorem witness_ReturnPopsTheReturnAddress : 0 < (State.reset.push 0x202).sp ∧ 0 < { State.reset with sp := 16 }.sp := by decide

theorem witness_StackFaultsAreFatal : { State.reset with sp := 16 }.sp = 16 ∧ State.reset.sp = 0 := by decide

/-- A call from 0x200 to a return at 4094. -/
def callNearTheEnd : State := { poke (poke (at200 0x2FFE) 0xFFE 0x00) 0xFFF 0xEE with sp := 15 }

theorem witness_CallThenReturnComesBack :
    callNearTheEnd.runState = .running ∧ callNearTheEnd.fault = .none ∧ callNearTheEnd.pc.toNat ≤ 4094 ∧
    decodeWord callNearTheEnd.fetchWord = some (.call 4094) ∧ callNearTheEnd.sp < 16 ∧
    Memory.readWord callNearTheEnd.mem 4094 = 0x00EE := by decide

theorem witness_LoadIndexTakesItsAddress : (Instr.ldI 0).wellFormed = true ∧ (Instr.ldI 4095).wellFormed = true := by decide

theorem witness_DecimalDigitsAreStored : Memory.wf (withI 4093).mem = true ∧ (withI 4093).i.toNat + 2 ≤ 4095 := by decide

theorem witness_RegisterBlockIsStored :
    Memory.wf (withI 4080).mem = true ∧ (withI 4080).i.toNat + (15 : Reg).val ≤ 4095 ∧ (withI 4095).i.toNat + (0 : Reg).val ≤ 4095 := by
  decide

theorem witness_RegisterBlockIsLoaded :
    (withI 4080).i.toNat + (15 : Reg).val ≤ 4095 ∧ (withI 4095).i.toNat + (0 : Reg).val ≤ 4095 := by decide

theorem witness_StoredBlockLoadsBack :
    Memory.wf (withI 4095).mem = true ∧ (withI 4095).i.toNat + (0 : Reg).val ≤ 4095 ∧
    exec (.stRegs 0) (withI 4095) = .next (withI 4095) :=
  ⟨by decide, by decide, next_of_answers (by decide)⟩

theorem witness_DataOutOfRangeIsRaised :
    4095 < (withI 4082).i.toNat + bytesAccessed (.drw 0 0 15) - 1 ∧ 4095 < (withI 4096).i.toNat + bytesAccessed (.drw 0 0 1) - 1 ∧
    4095 < (withI 4094).i.toNat + bytesAccessed (.ldB 0) - 1 ∧ 4095 < (withI 4081).i.toNat + bytesAccessed (.stRegs 15) - 1 ∧
    4095 < (withI 4096).i.toNat + bytesAccessed (.ldRegs 0) - 1 := by decide

/-- The glyph 0 drawn at the top left corner: the state before, and the states after one draw and after two. -/
def drawnOnce : State := { State.reset with disp := (State.reset.drawn .clip 0 0 5).disp }
def drawnTwice : State := State.reset.setReg VF 1

theorem witness_DrawXorsTheSprite :
    (withI 4081).i.toNat + 15 - 1 ≤ 4095 ∧ drawnOnce.cell 0 0 = true ∧ spriteBit drawnOnce 0 0 5 0 0 = true ∧
    State.reset.cell 0 0 = false := by decide

theorem witness_DrawingTwiceRestoresTheDisplay :
    (0 : Reg) ≠ VF ∧ State.reset.i.toNat + 5 - 1 ≤ 4095 ∧ drawSprite .clip 0 0 5 State.reset = .next drawnOnce :=
  ⟨by decide, by decide, next_of_answers (by decide)⟩

theorem witness_SecondDrawCollides :
    (0 : Reg) ≠ VF ∧ State.reset.i.toNat + 5 - 1 ≤ 4095 ∧ State.reset.disp = blankDisp ∧ spriteBit State.reset 0 0 5 0 0 = true ∧
    exec (.drw 0 0 5) State.reset = .next drawnOnce ∧ exec (.drw 0 0 5) drawnOnce = .next drawnTwice :=
  ⟨by decide, by decide, by decide, by decide, next_of_answers (by decide), next_of_answers (by decide)⟩

theorem witness_KeyTestsSkipOnTheirKey :
    (State.reset.reg 0).toNat ≤ 15 ∧ ((State.reset.setReg 3 15).reg 3).toNat ≤ 15 := by decide

theorem witness_KeyIndexOutOfRangeIsRaised :
    15 < ((State.reset.setReg 3 16).reg 3).toNat ∧ 15 < ((State.reset.setReg 3 255).reg 3).toNat := by decide

theorem witness_KeyWaitTakesAPressedKey :
    State.reset.keys = 0 ∧ (setKeys 0x8000 State.reset).keys ≠ 0 ∧ (setKeys 0xFFFF State.reset).keys ≠ 0 := by decide

theorem witness_KeyWaitIsAFixedPointOfTheStep :
    (at200 0xF30A).pc.toNat ≤ 4094 ∧ decodeWord (at200 0xF30A).fetchWord = some (.ldVxK 3) ∧ (at200 0xF30A).keys = 0 := by
  decide

theorem witness_SoundTimerIsWritten : State.reset.fault = .none := by decide

theorem witness_StepRunsTheDecodedInstruction :
    (at200 0x6FAB).runState = .running ∧ (at200 0x6FAB).fault = .none ∧ (at200 0x6FAB).pc.toNat ≤ 4094 ∧
    decodeWord ((at200 0x6FAB).read (at200 0x6FAB).pc.toNat ++ (at200 0x6FAB).read ((at200 0x6FAB).pc.toNat + 1)) =
      some (.ldImm 15 0xAB) := by decide

theorem witness_FetchOutOfRangeIsRaised :
    (at200 0).runState = .running ∧ (at200 0).fault = .none ∧ 4094 < { at200 0 with pc := 4095 }.pc.toNat ∧
    4094 < { at200 0 with pc := 4350 }.pc.toNat := by decide

/-- The two policies of its conclusion are open: no value of `Config.unimplPolicy` can be shown. -/
theorem witness_UnimplementedWordFollowsThePolicy :
    (at200 0x5121).runState = .running ∧ (at200 0x5121).fault = .none ∧ (at200 0x5121).pc.toNat ≤ 4094 ∧
    decodeWord (at200 0x5121).fetchWord = none := by decide

theorem witness_ShutGateIgnoresStepAndTick :
    State.reset.runState ≠ .running ∧ ((at200 0).latch .stackUnderflow 0x200 0x00EE).fault ≠ .none := by decide

theorem witness_FaultsArePrecise :
    (at200 0x00EE).runState = .running ∧ (at200 0x00EE).fault = .none ∧
    step (at200 0x00EE) = .next ((at200 0x00EE).advance.latch .stackUnderflow 0x200 0x00EE) ∧
    step { at200 0 with pc := 4095 } = .next ({ at200 0 with pc := 4095 }.latch .fetchOutOfRange 4095 0) :=
  ⟨by decide, by decide, next_of_answers (by decide), next_of_answers (by decide)⟩

/-- A running machine without a fault whose step leaves that code in the latch. -/
def stepFaults (code : FaultCode) (s : State) : Bool :=
  s.runState == .running && s.fault == .none && leaves s (fun t => t.fault == code)

/-- Each cause at its boundary, and beside it the last state without it. The fault of an unimplemented word turns on
`Config.unimplPolicy`, of which no value can be shown. -/
theorem witness_EachFaultHasItsCause :
    stepFaults .fetchOutOfRange { at200 0 with pc := 4095 } = true ∧
    stepFaults .none { poke (at200 0) 0xFFE 0x60 with pc := 4094 } = true ∧
    stepFaults .stackOverflow { at200 0x2300 with sp := 16 } = true ∧ stepFaults .none { at200 0x2300 with sp := 15 } = true ∧
    stepFaults .stackUnderflow (at200 0x00EE) = true ∧ stepFaults .none { at200 0x00EE with sp := 1 } = true ∧
    stepFaults .dataOutOfRange { at200 0xF033 with i := 4094 } = true ∧
    stepFaults .none { at200 0xF033 with i := 4093 } = true ∧
    stepFaults .keyIndexOutOfRange ((at200 0xE09E).setReg 0 16) = true ∧
    stepFaults .keyIndexOutOfRange ((at200 0xE0A1).setReg 0 16) = true ∧
    stepFaults .none ((at200 0xE09E).setReg 0 15) = true := by decide

theorem witness_RedrawAndToneHaveOneCauseEach :
    cycleResult (at200 0xD125) = ⟨.ok, true, false⟩ ∧ cycleResult ((at200 0xFA18).setReg 10 1) = ⟨.ok, false, true⟩ := by decide

theorem witness_EndedRunIsAFixedPointOfTheStep : (at200 0x1200).endedNormally := by
  unfold State.endedNormally
  decide

theorem inv_at200_call : (at200 0x2300).Inv := by
  unfold State.Inv State.pcBounded State.latchCoherent
  decide

theorem witness_EveryStepKeepsTheInvariant :
    (at200 0x2300).Inv ∧ step (at200 0x2300) = .next (((at200 0x2300).advance.push 0x202).setPc 0x300) :=
  ⟨inv_at200_call, next_of_answers (by decide)⟩

theorem witness_EveryEventKeepsTheInvariant :
    (at200 0x2300).Inv ∧ eventState .tick (at200 0x2300) = .next (at200 0x2300) :=
  ⟨inv_at200_call, next_of_answers (by decide)⟩

theorem witness_EachPartHasItsWriters : exec (.ldImm 3 7) State.reset = .next (State.reset.setReg 3 7) := rfl

theorem witness_RandomByteReachesOnlyRnd : ∀ x nn, decodeWord (at200 0x6FAB).fetchWord ≠ some (.rnd x nn) := by
  have h : decodeWord (at200 0x6FAB).fetchWord = some (.ldImm 15 0xAB) := by decide
  simp [h]

theorem witness_TickCountsBothTimersDown : State.reset.active = false ∧ (at200 0).active = true := by decide

theorem witness_TicksBringTimersToZero : (at200 0).active = true := by decide

theorem witness_SetRunStateIsIgnoredInHalted : { at200 0 with runState := .halted }.runState = .halted ∧ (at200 0).runState ≠ .halted := by
  decide

theorem witness_LoadPlacesTheProgram : ([] : List Byte).length ≤ 3584 ∧ (List.replicate 3584 (1 : Byte)).length ≤ 3584 :=
  ⟨Nat.zero_le _, Nat.le_of_eq List.length_replicate⟩

theorem witness_OversizedLoadIsAReset : 3584 < (List.replicate 3585 (1 : Byte)).length := by
  rw [List.length_replicate]
  decide

theorem witness_OnlyResetAndLoadClearTheLatch :
    ((at200 0).latch .stackUnderflow 0x200 0x00EE).fault ≠ .none ∧
    eventState .tick ((at200 0).latch .stackUnderflow 0x200 0x00EE) = .next ((at200 0).latch .stackUnderflow 0x200 0x00EE) ∧
    eventState .reset ((at200 0).latch .stackUnderflow 0x200 0x00EE) = .next State.reset :=
  ⟨by decide, next_of_answers (by decide), next_of_answers (by decide)⟩

end Sys2Proof.Tests
end

/-! ### What an instruction can do -/

namespace Sys2Proof.Machine

/-- The effects the execute phase of an instruction can have on a state whose program counter has been advanced:
one constructor per shape of next state, with the instructions it belongs to and the bounds the invariant needs.
`Effect.of_exec` says that there are no others. -/
inductive Effect (i : Instr) (s : State) : State → Prop where
  /-- A fault (R205); a fetch fault is never raised here. -/
  | fault (code : FaultCode) (hcode : code ≠ .none ∧ code ≠ .fetchOutOfRange) :
      Effect i s (s.latch code (s.pc - 2) (encode i))
  /-- One register, listed for the instruction (R22). -/
  | reg (x : Reg) (b : Byte) (hx : x ∈ writtenRegs i := by simp [writtenRegs]) : Effect i s (s.setReg x b)
  /-- One register and then the flag (R23). -/
  | regFlag (x : Reg) (b f : Byte) (hx : x ∈ writtenRegs i := by simp [writtenRegs])
      (hf : VF ∈ writtenRegs i := by simp [writtenRegs]) : Effect i s (s.setRegFlag x b f)
  /-- The drawn byte (R131). -/
  | random (x : Reg) (nn : Byte) (hi : i = .rnd x nn) : Effect i s (s.afterDraw.setReg x (s.drawnByte &&& nn))
  /-- The register block of FX65 (R145). -/
  | block (x : Reg) (bs : List Byte) (hlen : bs.length = x.val + 1) (hi : i = .ldRegs x) :
      Effect i s { s with v := loadBlock s.v 0 bs }
  /-- A taken or untaken skip (R25). -/
  | skip (c : Bool) : Effect i s (s.skipIf c)
  /-- A jump (R101, R103): no well-formed instruction jumps above 4350 (R25). -/
  | jump (w : Word) (hw : i.wellFormed = true → w.toNat ≤ 4350) : Effect i s (s.setPc w)
  /-- The key wait with no key pressed (R172). -/
  | wait : Effect i s (s.setPc (s.pc - 2))
  /-- A call with room on the stack (R102). -/
  | call (nnn : Nat) (hroom : s.sp < Config.stackCapacity) (hi : i = .call nnn) :
      Effect i s ((s.push s.pc).setPc (target nnn))
  /-- A return with an entry on the stack (R100). -/
  | ret (hentry : s.sp ≠ 0) (hi : i = .ret) : Effect i s (s.pop.setPc (s.stack (s.sp - 1)))
  /-- The index register (R140 to R142). -/
  | index (w : Word) (hi : (∃ nnn, i = .ldI nnn) ∨ ∃ x, i = .addI x ∨ i = .ldF x) : Effect i s { s with i := w }
  /-- The delay timer (R177). -/
  | delay (x : Reg) (b : Byte) (hi : i = .ldDtVx x) : Effect i s { s with dt := b }
  /-- The sound timer (R178). -/
  | sound (x : Reg) (b : Byte) (hi : i = .ldStVx x) : Effect i s { s with st := b }
  /-- The cleared display (R160). -/
  | clear (hi : i = .cls) : Effect i s { s with disp := blankDisp }
  /-- A draw, with the collision in `VF` (R161). -/
  | draw (x y : Reg) (n : Nat) (d : Disp) (f : Byte) (hi : i = .drw x y n) :
      Effect i s ({ s with disp := d }.setReg VF f)
  /-- A store of the bytes the instruction accesses (R143, R144). -/
  | store (x : Reg) (bs : List Byte) (hlen : bs.length = bytesAccessed i) (hi : i = .ldB x ∨ i = .stRegs x) :
      Effect i s { s with mem := Memory.writeList s.mem s.i.toNat bs }

/-- A meaning with a range check: its own effect, or the fault. -/
theorem Effect.of_guard {i : Instr} {s t u : State} {code : FaultCode} {c : Prop} [Decidable c]
    (h : (if c then .next u else raise code (encode i) s) = .next t) (hu : c → Effect i s u)
    (hcode : code ≠ .none ∧ code ≠ .fetchOutOfRange := by decide) : Effect i s t := by
  split at h
  · cases h
    exact hu ‹c›
  · cases h
    exact .fault code hcode

/-- A meaning whose check comes first in the negative: the fault, or its own effect. -/
theorem Effect.of_guard_not {i : Instr} {s t u : State} {code : FaultCode} {c : Prop} [Decidable c]
    (h : (if c then raise code (encode i) s else .next u) = .next t) (hu : ¬c → Effect i s u)
    (hcode : code ≠ .none ∧ code ≠ .fetchOutOfRange := by decide) : Effect i s t :=
  .of_guard (c := ¬c) (by rw [ite_not]; exact h) hu hcode

theorem target_le_of_nnnFits {nnn : Nat} (h : nnnFits nnn = true) : (target nnn).toNat ≤ 4095 := by
  have hlt : nnn < 4096 := by simpa [nnnFits] using h
  rw [target_toNat hlt]
  omega

/-- The offset jump reaches at most 255 + 4095 (R25). -/
theorem offset_target_le {nnn : Nat} (b : Byte) (h : nnnFits nnn = true) : (zext b + target nnn).toNat ≤ 4350 := by
  have hb := zext_toNat b
  have ht := target_le_of_nnnFits h
  rw [BitVec.toNat_add]
  omega

/-- Every instruction that leaves a next state has one of the effects. -/
theorem Effect.of_exec {s t : State} : {i : Instr} → exec i s = .next t → Effect i s t
  | .cls, rfl => .clear rfl
  | .ret, h => .of_guard_not h (fun hsp => .ret hsp rfl)
  | .jp _, rfl => .jump _ fun hw => (target_le_of_nnnFits hw).trans (by decide)
  | .call nnn, h => .of_guard_not h (fun hsp => .call nnn (Nat.lt_of_not_le hsp) rfl)
  | .seImm _ _, rfl => .skip _
  | .sneImm _ _, rfl => .skip _
  | .seReg _ _, rfl => .skip _
  | .ldImm _ _, rfl => .reg _ _
  | .addImm _ _, rfl => .reg _ _
  | .ldReg _ _, rfl => .reg _ _
  | .orReg _ _, rfl => .reg _ _
  | .andReg _ _, rfl => .reg _ _
  | .xorReg _ _, rfl => .reg _ _
  | .addReg _ _, rfl => .regFlag _ _ _
  | .sub _ _, rfl => .regFlag _ _ _
  | .shr _ _, rfl => .regFlag _ _ _
  | .subn _ _, rfl => .regFlag _ _ _
  | .shl _ _, rfl => .regFlag _ _ _
  | .sneReg _ _, rfl => .skip _
  | .ldI nnn, rfl => .index _ (.inl ⟨nnn, rfl⟩)
  | .jpV0 _, rfl => .jump _ (offset_target_le _)
  | .rnd x nn, rfl => .random x nn rfl
  | .drw x y n, h => .of_guard h (fun _ => .draw x y n _ _ rfl)
  | .skp _, h => .of_guard h (fun _ => .skip _)
  | .sknp _, h => .of_guard h (fun _ => .skip _)
  | .ldVxDt _, rfl => .reg _ _
  | .ldVxK x, h => by
    change execLdVxK x s = _ at h
    unfold execLdVxK at h
    split at h
    · cases h
      exact .wait
    · cases h
      exact .reg x _
  | .ldDtVx x, rfl => .delay x _ rfl
  | .ldStVx x, rfl => .sound x _ rfl
  | .addI x, rfl => .index _ (.inr ⟨x, .inl rfl⟩)
  | .ldF x, rfl => .index _ (.inr ⟨x, .inr rfl⟩)
  | .ldB x, h => .of_guard h (fun _ => .store x _ rfl (.inl rfl))
  | .stRegs x, h => .of_guard h (fun _ => .store x _ (s.block_length x) (.inr rfl))
  | .ldRegs x, h => .of_guard h (fun _ => .block x _ (Memory.readList_length _ _ _) rfl)

end Sys2Proof.Machine

/-! ### The invariant is kept -/

namespace Sys2Proof.Machine

/-- Every row of the opcode map builds a well-formed instruction: `NNN` and `N` are slices of the word. -/
theorem wellFormed_build {r : Row} (hr : r ∈ opcodeMap) (w : Word) : (r.build (fieldsOf w)).wellFormed = true := by
  have hnnn : nnnFits (fieldsOf w).nnn = true := decide_eq_true (w.extractLsb' 0 12).isLt
  have hn : heightFits (fieldsOf w).n = true := decide_eq_true (w.extractLsb' 0 4).isLt
  revert r
  simp [opcodeMap, rowsLow, rowsEight, rowsHigh, rowsFifteen, Instr.wellFormed, hnnn, hn]

theorem wellFormed_of_decodeWord {w : Word} {i : Instr} (h : decodeWord w = some i) : i.wellFormed = true := by
  obtain ⟨r, hr, rfl⟩ := Option.map_eq_some_iff.1 h
  exact wellFormed_build (List.mem_of_find?_eq_some hr) w

/-! One rule per operation. -/

namespace State.Inv

variable {s : State}

theorem setPc (h : s.Inv) {w : Word} (hw : w.toNat ≤ 4350) : (s.setPc w).Inv := by
  obtain ⟨hmem, hsp, ⟨-, hstk⟩, hlatch⟩ := h
  exact ⟨hmem, hsp, ⟨hw, hstk⟩, hlatch⟩

theorem latch (h : s.Inv) {code : FaultCode} {a w : Word} (hcode : code ≠ .none)
    (hfetch : code = .fetchOutOfRange → 4094 < a.toNat ∧ w = 0) : (s.latch code a w).Inv := by
  obtain ⟨hmem, hsp, hpc, -⟩ := h
  exact ⟨hmem, hsp, hpc, fun hnone => absurd hnone hcode, hfetch⟩

theorem push (h : s.Inv) {w : Word} (hroom : s.sp < Config.stackCapacity) (hw : w.toNat ≤ 4096) :
    (s.push w).Inv := by
  obtain ⟨hmem, -, ⟨hpc, hstk⟩, hlatch⟩ := h
  refine ⟨hmem, hroom, ⟨hpc, fun k hk => ?_⟩, hlatch⟩
  rw [State.push_stack]
  split
  · exact hw
  · exact hstk k hk

theorem pop (h : s.Inv) : s.pop.Inv := by
  obtain ⟨hmem, hsp, hpc, hlatch⟩ := h
  exact ⟨hmem, (Nat.sub_le _ _).trans hsp, hpc, hlatch⟩

theorem writeList (h : s.Inv) (a : Nat) (bs : List Byte) : { s with mem := Memory.writeList s.mem a bs }.Inv := by
  obtain ⟨hmem, hrest⟩ := h
  exact ⟨Memory.wf_writeList a bs hmem, hrest⟩

theorem afterDraw (h : s.Inv) : s.afterDraw.Inv := by
  unfold State.afterDraw
  split
  · exact h
  · exact h

theorem skipIf (h : s.Inv) (hpc : s.pc.toNat ≤ 4096) (c : Bool) : (s.skipIf c).Inv := by
  unfold State.skipIf
  split
  · refine h.setPc ?_
    rw [BitVec.toNat_add]
    change (s.pc.toNat + 2) % 65536 ≤ 4350
    omega
  · exact h

/-- An entry below the stack depth is a bounded address. -/
theorem stack_le (h : s.Inv) {k : Nat} (hk : k < s.sp) : (s.stack k).toNat ≤ 4096 := by
  obtain ⟨-, hsp, ⟨-, hstk⟩, -⟩ := h
  exact hstk k (hk.trans_le hsp)

theorem reset : State.reset.Inv := by
  unfold State.Inv State.pcBounded State.latchCoherent
  decide

end State.Inv

/-- The program counter after the fetch of a word inside memory (R64). -/
theorem State.advance_pc_toNat {s : State} (hf : s.fetchable = true) : s.advance.pc.toNat = s.pc.toNat + 2 := by
  have hpc := s.fetchable_iff.1 hf
  rw [State.advance_pc, BitVec.toNat_add]
  change (s.pc.toNat + 2) % 65536 = _
  omega

theorem State.Inv.advance {s : State} (h : s.Inv) (hf : s.fetchable = true) : s.advance.Inv := by
  have hadv := State.advance_pc_toNat hf
  have hpc := s.fetchable_iff.1 hf
  exact h.setPc (w := s.advance.pc) (by omega)

/-- An effect on an advanced state keeps the invariant. -/
theorem Effect.inv {i : Instr} {s t : State} (h : Effect i s t) (hi : i.wellFormed = true) (hs : s.Inv)
    (hlo : 2 ≤ s.pc.toNat) (hhi : s.pc.toNat ≤ 4096) : t.Inv := by
  cases h with
  | fault code hcode => exact hs.latch hcode.1 fun hfetch => absurd hfetch hcode.2
  | reg | regFlag | block | index | delay | sound | clear | draw => exact hs
  | random => exact hs.afterDraw
  | skip c => exact hs.skipIf hhi c
  | jump w hw => exact hs.setPc (hw hi)
  | wait =>
    refine hs.setPc ?_
    rw [BitVec.toNat_sub_of_le hlo]
    omega
  | call nnn hroom heq =>
    subst heq
    exact (hs.push hroom hhi).setPc ((target_le_of_nnnFits hi).trans (by decide))
  | ret hentry => exact hs.pop.setPc ((hs.stack_le (Nat.sub_one_lt hentry)).trans (by decide))
  | store => exact hs.writeList _ _

/-- Settles O49: case by case of a step, and within an instruction effect by effect. -/
theorem everyStepKeepsTheInvariant : Obligations.EveryStepKeepsTheInvariant := by
  intro s t hs h
  obtain ⟨-, rfl⟩ | ⟨-, hf, rfl⟩ | ⟨-, hf, i, hd, hexec⟩ | ⟨-, hf, -, hun⟩ := step_cases h
  · exact hs
  · have hpc : ¬s.pc.toNat ≤ 4094 := fun hle => by simp [s.fetchable_iff.2 hle] at hf
    exact hs.latch (by decide) fun _ => ⟨by omega, rfl⟩
  · have hadv := State.advance_pc_toNat hf
    have hpc := s.fetchable_iff.1 hf
    exact (Effect.of_exec hexec).inv (wellFormed_of_decodeWord hd) (hs.advance hf) (by omega) (by omega)
  · obtain ⟨-, rfl⟩ | ⟨-, rfl⟩ := unimplemented_cases hun
    · exact hs.advance hf
    · exact (hs.advance hf).latch (by decide) nofun

/-- What the event `STEP(rnd)` leaves is what a step leaves, with the byte taken out again (R41). -/
theorem stepEvent_cases {rnd : Byte} {s t : State} (h : stepEvent rnd s = .next t) :
    ∃ u, step { s with rndIn := some rnd } = .next u ∧ t = { u with rndIn := s.rndIn } := by
  unfold stepEvent at h
  split at h
  · cases h
    exact ⟨_, ‹_›, rfl⟩
  · cases h
  · cases h

theorem State.Inv.loadEvent (bytes : List Byte) (s : State) : (loadEvent bytes s).Inv := by
  unfold Machine.loadEvent
  split
  · exact State.Inv.writeList (s := State.reset) .reset Config.loadBase bytes
  · exact .reset

theorem State.Inv.tick {s : State} (h : s.Inv) : (tick s).Inv := by
  unfold Machine.tick
  split
  · exact h
  · exact h

theorem State.Inv.setRunState {s : State} (h : s.Inv) (r : RunState) : (setRunState r s).Inv := by
  unfold Machine.setRunState
  split
  · exact h
  · exact h

/-- Settles O50, event by event: a step by O49, RESET and LOAD from the state after reset. -/
theorem everyEventKeepsTheInvariant : Obligations.EveryEventKeepsTheInvariant := by
  intro e s t hs h
  cases e with
  | reset =>
    cases h
    exact State.Inv.reset
  | load bytes =>
    cases h
    exact .loadEvent bytes s
  | step rnd =>
    obtain ⟨u, hstep, rfl⟩ := stepEvent_cases h
    exact everyStepKeepsTheInvariant { s with rndIn := some rnd } u hs hstep
  | tick =>
    cases h
    exact hs.tick
  | setKeys k =>
    cases h
    exact hs
  | setRunState r =>
    cases h
    exact hs.setRunState r

/-- Settles O48. -/
theorem resetMeetsTheInvariant : Obligations.ResetMeetsTheInvariant := State.Inv.reset

end Sys2Proof.Machine

/-! ### Which instructions write which part -/

namespace Sys2Proof.Machine

section
variable {i : Instr} {s t : State}

theorem Effect.runState_eq (h : Effect i s t) : t.runState = s.runState := by
  cases h <;> simp

theorem Effect.keys_eq (h : Effect i s t) : t.keys = s.keys := by
  cases h <;> simp

/-- A block load leaves the registers above `x` (R145). -/
theorem reg_of_loadBlock {x r : Reg} {bs : List Byte} (s : State) (hlen : bs.length = x.val + 1) (hr : x < r) :
    State.reg { s with v := loadBlock s.v 0 bs } r = s.reg r := by
  have hout : ¬(0 ≤ r.val ∧ r.val < 0 + bs.length) := by
    have : x.val < r.val := hr
    omega
  simp only [State.reg, getElem_loadBlock, dif_neg hout]

theorem Effect.reg_eq (h : Effect i s t) {r : Reg} (hr : r ∉ writtenRegs i) : t.reg r = s.reg r := by
  cases h with
  | reg x b hx => exact s.setReg_reg_other b (ne_of_mem_of_not_mem hx hr).symm
  | regFlag x b f hx hf =>
    rw [State.setRegFlag_reg, if_neg (ne_of_mem_of_not_mem hf hr).symm, if_neg (ne_of_mem_of_not_mem hx hr).symm]
  | random x nn hi =>
    subst hi
    rw [State.setReg_reg_other _ _ (by simpa [writtenRegs] using hr), State.afterDraw_reg]
  | block x bs hlen hi =>
    subst hi
    exact reg_of_loadBlock s hlen (by simpa [writtenRegs] using hr)
  | draw x y n d f hi =>
    subst hi
    exact State.setReg_reg_other { s with disp := d } f (by simpa [writtenRegs] using hr)
  | fault | skip | jump | wait | call | ret => simp
  | index | delay | sound | clear | store => rfl

theorem Effect.index_writer (h : Effect i s t) (hne : t.i ≠ s.i) :
    (∃ nnn, i = .ldI nnn) ∨ ∃ x, i = .addI x ∨ i = .ldF x := by
  cases h with
  | index w hi => exact hi
  | _ => simp at hne

theorem Effect.delay_writer (h : Effect i s t) (hne : t.dt ≠ s.dt) : ∃ x, i = .ldDtVx x := by
  cases h with
  | delay x b hi => exact ⟨x, hi⟩
  | _ => simp at hne

theorem Effect.sound_writer (h : Effect i s t) (hne : t.st ≠ s.st) : ∃ x, i = .ldStVx x := by
  cases h with
  | sound x b hi => exact ⟨x, hi⟩
  | _ => simp at hne

theorem Effect.display_writer (h : Effect i s t) (hne : ∃ y x, t.cell y x ≠ s.cell y x) :
    i = .cls ∨ ∃ x y n, i = .drw x y n := by
  cases h with
  | clear hi => exact .inl hi
  | draw x y n d f hi => exact .inr ⟨x, y, n, hi⟩
  | _ => simp [State.cell] at hne

theorem Effect.stack_writer (h : Effect i s t) (hne : t.sp ≠ s.sp ∨ ∃ k, t.stack k ≠ s.stack k) :
    i = .ret ∨ ∃ nnn, i = .call nnn := by
  cases h with
  | ret hentry hi => exact .inl hi
  | call nnn hroom hi => exact .inr ⟨nnn, hi⟩
  | _ => simp [State.stack] at hne

/-- A byte that a store changes is one of those it accesses. -/
theorem mem_range_of_writeList_ne {m : Memory} {a b : Nat} {bs : List Byte}
    (hne : Memory.read (Memory.writeList m b bs) a ≠ Memory.read m a) : b ≤ a ∧ a < b + bs.length := by
  by_contra hout
  exact hne (Memory.read_writeList_other m bs (by omega))

theorem Effect.memory_writer (h : Effect i s t) {a : Nat} (hne : t.read a ≠ s.read a) :
    (∃ x, i = .ldB x ∨ i = .stRegs x) ∧ s.i.toNat ≤ a ∧ a < s.i.toNat + bytesAccessed i := by
  cases h with
  | store x bs hlen hi =>
    rw [← hlen]
    exact ⟨⟨x, hi⟩, mem_range_of_writeList_ne hne⟩
  | _ => simp [State.read] at hne

end

/-- Settles O51: the writers of each part, from the effects an instruction can have. -/
theorem eachPartHasItsWriters : Obligations.EachPartHasItsWriters := by
  intro s t i h
  have he := Effect.of_exec h
  exact ⟨he.runState_eq, he.keys_eq, fun r hr => he.reg_eq hr, he.index_writer, he.display_writer, he.delay_writer,
    he.sound_writer, he.stack_writer, fun a ha => he.memory_writer ha⟩

end Sys2Proof.Machine

/-! ### The random byte -/

namespace Sys2Proof.Machine

/-- The state with another byte given to the step under way (R41). -/
def State.withRnd (r : Option Byte) (s : State) : State := { s with rndIn := r }

/-- A function applied to the next state of a result. -/
def mapNext (f : State → State) : Result → Result
  | .next t => .next (f t)
  | .fault e => .fault e
  | .refused e => .refused e

theorem mapNext_ite (f : State → State) (c : Prop) [Decidable c] (a b : Result) :
    mapNext f (if c then a else b) = if c then mapNext f a else mapNext f b := apply_ite _ _ _ _

theorem mapNext_mapNext (f g : State → State) (r : Result) : mapNext f (mapNext g r) = mapNext (f ∘ g) r := by
  cases r <;> rfl

theorem State.skipIf_withRnd (r : Option Byte) (s : State) (c : Bool) :
    (s.withRnd r).skipIf c = (s.skipIf c).withRnd r := by
  cases c <;> rfl

/-- Only CXNN reads the random byte: every other instruction commutes with replacing it. -/
theorem exec_withRnd (r : Option Byte) (s : State) {i : Instr} (hi : ∀ x nn, i ≠ .rnd x nn) :
    exec i (s.withRnd r) = mapNext (State.withRnd r) (exec i s) := by
  cases i with
  | rnd x nn => exact absurd rfl (hi x nn)
  | seImm | sneImm | seReg | sneReg => exact congrArg Host.Outcome.next (State.skipIf_withRnd r s _)
  | ret | call | drw | ldB | stRegs | ldRegs =>
    simp only [exec, execRet, execCall, execDrw, drawSprite, execLdB, execStRegs, execLdRegs, mapNext_ite]
    rfl
  | skp | sknp =>
    simp only [exec, execSkp, execSknp, mapNext_ite, State.skipIf_withRnd]
    rfl
  | ldVxK x =>
    have hkey : selectKey (s.withRnd r) = selectKey s := rfl
    simp only [exec, execLdVxK, hkey]
    cases selectKey s <;> rfl
  | _ => rfl

theorem unimplemented_withRnd (r : Option Byte) (w : Word) (s : State) :
    unimplemented w (s.withRnd r) = mapNext (State.withRnd r) (unimplemented w s) := by
  unfold unimplemented
  cases Config.unimplPolicy <;> rfl

theorem stepEvent_eq_mapNext (b : Byte) (s : State) :
    stepEvent b s = mapNext (State.withRnd s.rndIn) (step (s.withRnd (some b))) := rfl

section
variable {s : State} (h : ∀ x nn, decodeWord s.fetchWord ≠ some (.rnd x nn))
include h

/-- A step that runs no CXNN commutes with replacing the random byte. -/
theorem step_withRnd (r : Option Byte) : step (s.withRnd r) = mapNext (State.withRnd r) (step s) := by
  have hfetch : (s.withRnd r).fetchWord = s.fetchWord := rfl
  have hactive : (s.withRnd r).active = s.active := rfl
  have hfetchable : (s.withRnd r).fetchable = s.fetchable := rfl
  have hadvance : (s.withRnd r).advance = s.advance.withRnd r := rfl
  simp only [step, hfetch, hactive, hfetchable, hadvance, mapNext_ite]
  cases hd : decodeWord s.fetchWord with
  | none =>
    simp only [unimplemented_withRnd]
    rfl
  | some i =>
    have hi : ∀ x nn, i ≠ .rnd x nn := fun x nn heq => h x nn (heq ▸ hd)
    simp only [exec_withRnd r s.advance hi]
    rfl

/-- The event `STEP(rnd)` is then a step, whatever the byte. -/
theorem stepEvent_eq_step (b : Byte) : stepEvent b s = step s := by
  calc stepEvent b s = mapNext (State.withRnd s.rndIn) (step (s.withRnd (some b))) := stepEvent_eq_mapNext b s
    _ = mapNext (State.withRnd s.rndIn) (step s) := by
      rw [step_withRnd h, mapNext_mapNext]
      rfl
    _ = step s := (step_withRnd h s.rndIn).symm

theorem cycleResult_withRnd (r : Option Byte) : cycleResult (s.withRnd r) = cycleResult s := by
  have hfetch : (s.withRnd r).fetchWord = s.fetchWord := rfl
  have hadvance : (s.withRnd r).advance = s.advance.withRnd r := rfl
  unfold cycleResult
  rw [hfetch, hadvance]
  cases hd : decodeWord s.fetchWord with
  | none => rfl
  | some i =>
    have hexec : execResult i (s.advance.withRnd r) = execResult i s.advance := by
      have hi : ∀ x nn, i ≠ .rnd x nn := fun x nn heq => h x nn (heq ▸ hd)
      unfold execResult
      rw [exec_withRnd r s.advance hi]
      cases exec i s.advance <;> rfl
    simp only [hexec]
    rfl

end

/-- Settles O52: without a CXNN at `PC` neither the event nor its result depends on the byte. -/
theorem randomByteReachesOnlyRnd : Obligations.RandomByteReachesOnlyRnd := by
  intro s b c h
  exact ⟨(stepEvent_eq_step h b).trans (stepEvent_eq_step h c).symm,
    (cycleResult_withRnd h (some b)).trans (cycleResult_withRnd h (some c)).symm⟩

end Sys2Proof.Machine

/-! ### Reset values and the host's events -/

namespace Sys2Proof.Machine

theorem State.reset_read (a : Nat) : State.reset.read a = Memory.resetByte a := rfl

theorem Memory.resetByte_of_font {a : Nat} (ha : a < 80) : some (Memory.resetByte a) = Config.font[a]? := by
  have hlen : a < Config.font.length := ha
  rw [Memory.resetByte, List.getD_eq_getElem _ _ hlen, List.getElem?_eq_getElem hlen]

theorem Memory.resetByte_above_font {a : Nat} (ha : 80 ≤ a) : Memory.resetByte a = 0 :=
  List.getD_eq_default _ _ ha

theorem State.reset_reg (r : Reg) : State.reset.reg r = 0 := by simp [State.reg, State.reset]

/-- Every entry of the stack reads as 0 after reset, outside the array as well. -/
theorem State.reset_stack (k : Nat) : State.reset.stack k = 0 := by
  simp only [State.stack, State.reset, Vector.getElem?_replicate]
  split <;> rfl

theorem State.reset_cell (y x : Nat) : State.reset.cell y x = false := by
  simp only [State.cell, Disp.cell, State.reset, Vector.getElem?_replicate]
  split <;> simp

/-- Settles O47. -/
theorem resetLeavesTheResetValues : Obligations.ResetLeavesTheResetValues :=
  ⟨State.reset_reg, rfl, rfl, rfl, State.reset_stack, rfl, rfl, rfl, State.reset_cell,
    fun _ => Memory.resetByte_of_font, fun _ => Memory.resetByte_above_font, rfl, rfl, rfl, rfl⟩

/-- Settles O55. -/
theorem setKeysWritesTheKeypad : Obligations.SetKeysWritesTheKeypad := by
  intro s k
  have hframe : sameExcept [.keypad] s (setKeys k s) := by
    simp [sameExcept, setKeys, State.reg, State.stack, State.cell, State.read]
  exact ⟨fun _ _ => rfl, hframe, rfl, rfl⟩

theorem setRunState_of_halted {s : State} (r : RunState) (h : s.runState = .halted) : setRunState r s = s := if_pos h

theorem setRunState_of_not_halted {s : State} (r : RunState) (h : s.runState ≠ .halted) :
    setRunState r s = { s with runState := r } := if_neg h

theorem sameExcept_setRunState (r : RunState) (s : State) : sameExcept [.runState] s (setRunState r s) := by
  by_cases h : s.runState = .halted
  · rw [setRunState_of_halted r h]
    exact sameExcept_refl _ s
  · rw [setRunState_of_not_halted r h]
    simp [sameExcept, State.reg, State.stack, State.cell, State.read]

/-- Settles O56. -/
theorem setRunStateIsIgnoredInHalted : Obligations.SetRunStateIsIgnoredInHalted := by
  intro s r
  refine ⟨setRunState_of_halted r, fun h => ?_, sameExcept_setRunState r s⟩
  rw [setRunState_of_not_halted r h]

theorem loadEvent_latch (bytes : List Byte) (s : State) :
    (loadEvent bytes s).fault = .none ∧ (loadEvent bytes s).faultPc = 0 ∧ (loadEvent bytes s).faultWord = 0 := by
  unfold loadEvent
  split
  · exact ⟨rfl, rfl, rfl⟩
  · exact ⟨rfl, rfl, rfl⟩

/-- A latched fault shuts the gate (R225). -/
theorem not_active_of_fault {s : State} (h : s.fault ≠ .none) : s.active = false := by simp [State.active, h]

theorem tick_of_not_active {s : State} (h : s.active = false) : tick s = s := by simp [tick, h]

/-- With the gate shut the event `STEP(rnd)` leaves the state as it is. -/
theorem eq_of_stepEvent_of_not_active {rnd : Byte} {s t : State} (hs : s.active = false)
    (h : stepEvent rnd s = .next t) : t = s := by
  obtain ⟨u, hstep, rfl⟩ := stepEvent_cases h
  rw [step_of_not_active (s := { s with rndIn := some rnd }) hs] at hstep
  cases hstep
  rfl

/-- Settles O59: RESET and LOAD clear the latch, a step and a tick find the gate shut, and the other two events do not
touch it. -/
theorem onlyResetAndLoadClearTheLatch : Obligations.OnlyResetAndLoadClearTheLatch := by
  intro e s t hfault h
  have hgate := not_active_of_fault hfault
  cases e with
  | reset =>
    cases h
    exact ⟨fun _ => ⟨rfl, rfl, rfl⟩, fun hne => absurd rfl hne⟩
  | load bytes =>
    cases h
    exact ⟨fun _ => loadEvent_latch bytes s, fun _ hne => absurd rfl (hne bytes)⟩
  | step rnd =>
    rw [eq_of_stepEvent_of_not_active hgate h]
    exact ⟨by simp, fun _ _ => ⟨rfl, rfl, rfl⟩⟩
  | tick =>
    cases h
    rw [tick_of_not_active hgate]
    exact ⟨by simp, fun _ _ => ⟨rfl, rfl, rfl⟩⟩
  | setKeys k =>
    cases h
    exact ⟨by simp, fun _ _ => ⟨rfl, rfl, rfl⟩⟩
  | setRunState r =>
    cases h
    obtain ⟨-, -, -, -, -, -, -, -, -, -, hlatch, -⟩ := sameExcept_setRunState r s
    exact ⟨by simp, fun _ _ => hlatch (by decide)⟩

end Sys2Proof.Machine

/-! ### Accesses outside memory -/

namespace Sys2Proof.Machine

/-- The four instructions that access memory check the range first, and answer an access outside it with the fault
(R65). -/
theorem exec_of_dataOutOfRange {s : State} {i : Instr} (hn : 1 ≤ bytesAccessed i)
    (hout : 4095 < s.i.toNat + bytesAccessed i - 1) : exec i s = raise .dataOutOfRange (encode i) s := by
  have hrange : ¬s.dataInRange (bytesAccessed i) = true := by
    rw [s.dataInRange_iff]
    omega
  cases i with
  | drw | ldB | stRegs | ldRegs => exact if_neg hrange
  | _ => exact absurd hn (Nat.not_succ_le_zero 0)

/-- Settles O27. -/
theorem dataOutOfRangeIsRaised : Obligations.DataOutOfRangeIsRaised := by
  intro s i hn hout
  exact ⟨_, exec_of_dataOutOfRange hn hout, raised_of_raise rfl⟩

/-- Settles O39: the gate is open and the fetch address is not one of memory's. -/
theorem fetchOutOfRangeIsRaised : Obligations.FetchOutOfRangeIsRaised := by
  intro s hrun hfault hpc
  have hactive : s.active = true := s.active_iff.2 ⟨hrun, hfault⟩
  have hfetch : s.fetchable = false := by
    rw [Bool.eq_false_iff, ne_eq, s.fetchable_iff]
    omega
  exact ⟨_, step_of_not_fetchable hactive hfetch, rfl, rfl, rfl, sameExcept_latch s _ _ _⟩

end Sys2Proof.Machine

/-! ### Encoding: decode after encode, encode after decode, the rows and the words outside them -/

namespace Sys2Proof.Laws.RowOf

/-- Every instruction has a row of the opcode map. -/
theorem statement : ∀ i : Instr, Statement i
  | .cls => cls
  | .ret => ret
  | .jp nnn => jp nnn
  | .call nnn => call nnn
  | .seImm x nn => seImm x nn
  | .sneImm x nn => sneImm x nn
  | .seReg x y => seReg x y
  | .ldImm x nn => ldImm x nn
  | .addImm x nn => addImm x nn
  | .ldReg x y => ldReg x y
  | .orReg x y => orReg x y
  | .andReg x y => andReg x y
  | .xorReg x y => xorReg x y
  | .addReg x y => addReg x y
  | .sub x y => sub x y
  | .shr x y => shr x y
  | .subn x y => subn x y
  | .shl x y => shl x y
  | .sneReg x y => sneReg x y
  | .ldI nnn => ldI nnn
  | .jpV0 nnn => jpV0 nnn
  | .rnd x nn => rnd x nn
  | .drw x y n => drw x y n
  | .skp x => skp x
  | .sknp x => sknp x
  | .ldVxDt x => ldVxDt x
  | .ldVxK x => ldVxK x
  | .ldDtVx x => ldDtVx x
  | .ldStVx x => ldStVx x
  | .addI x => addI x
  | .ldF x => ldF x
  | .ldB x => ldB x
  | .stRegs x => stRegs x
  | .ldRegs x => ldRegs x

end Sys2Proof.Laws.RowOf

namespace Sys2Proof

/-! The rows of the opcode map exclude each other. -/

theorem Row.covers_iff {r : Row} {w : Word} : r.covers w = true ↔ w &&& r.mask = r.pattern := beq_iff_eq

/-- Two rows that cover one word agree on the bits that both test. -/
theorem Row.pattern_and_mask_eq {r r' : Row} {w : Word} (h : r.covers w = true) (h' : r'.covers w = true) :
    r.pattern &&& r'.mask = r'.pattern &&& r.mask := by
  rw [Row.covers_iff] at h h'
  rw [← h, ← h', BitVec.and_assoc, BitVec.and_assoc, BitVec.and_comm r.mask]

/-- Two rows of the map that agree on the bits that both test are at one place. -/
theorem place_eq_of_pattern_and_mask_eq : ∀ j k : Fin opcodeMap.length,
    (opcodeMap.get j).pattern &&& (opcodeMap.get k).mask = (opcodeMap.get k).pattern &&& (opcodeMap.get j).mask →
      j = k := by
  decide

/-- Settles O5: the bits that two rows both test tell them apart (R85). -/
theorem noTwoOpcodeRowsOverlap : Obligations.NoTwoOpcodeRowsOverlap := fun j k _ hj hk =>
  place_eq_of_pattern_and_mask_eq j k (Row.pattern_and_mask_eq hj hk)

/-- The decoder answers with any row of the map that covers the word: there is only one. -/
theorem decodeWord_of_covers {r : Row} {w : Word} (hr : r ∈ opcodeMap) (hw : r.covers w = true) :
    decodeWord w = some (r.build (fieldsOf w)) := by
  cases hfind : opcodeMap.find? (fun r => r.covers w) with
  | none => exact absurd hw (List.find?_eq_none.1 hfind r hr)
  | some r' =>
    obtain ⟨k, rfl⟩ := List.get_of_mem hr
    obtain ⟨j, rfl⟩ := List.get_of_mem (List.mem_of_find?_eq_some hfind)
    have hjk : j = k := noTwoOpcodeRowsOverlap j k w (List.find?_some (p := fun r : Row => r.covers w) hfind) hw
    rw [decodeWord, hfind, hjk, Option.map_some]

theorem decodeWord_eq_some_iff {w : Word} {i : Instr} :
    decodeWord w = some i ↔ ∃ r ∈ opcodeMap, r.covers w = true ∧ r.build (fieldsOf w) = i := by
  constructor
  · intro h
    obtain ⟨r, hfind, hbuild⟩ := Option.map_eq_some_iff.1 h
    exact ⟨r, List.mem_of_find?_eq_some hfind, List.find?_some (p := fun r : Row => r.covers w) hfind, hbuild⟩
  · rintro ⟨r, hr, hw, rfl⟩
    exact decodeWord_of_covers hr hw

theorem decodeWord_eq_none_iff {w : Word} : decodeWord w = none ↔ ∀ r ∈ opcodeMap, ¬r.covers w = true := by
  rw [decodeWord, Option.map_eq_none_iff, List.find?_eq_none]

/-! Decode after encode. -/

/-- Decode after encode, on words. -/
theorem decodeWord_encode {i : Instr} (h : i.wellFormed = true) : decodeWord (encode i) = some i := by
  obtain ⟨r, hr, -, hcovers, hbuild⟩ := Laws.RowOf.statement i
  rw [decodeWord_of_covers hr hcovers, hbuild h]

/-- Settles O3: the two bytes make the word again (R66), and the word decodes by the row of its instruction. -/
theorem encodedInstructionsDecodeBack : Obligations.EncodedInstructionsDecodeBack := by
  intro i rest h
  simp [encodeBytes, bytesOfWord, decode, decodeWord_encode h]

/-! Encode after decode. -/

/-- A slice of a word put back at its place is the word under the mask of the slice. -/
theorem shiftLeft_extractLsb'_eq_and (w : Word) (lo len : Nat) :
    (w.extractLsb' lo len).setWidth 16 <<< lo = w &&& (BitVec.allOnes len).setWidth 16 <<< lo := by
  apply BitVec.eq_of_getLsbD_eq
  intro i hi
  by_cases h : lo ≤ i
  · have hback : lo + (i - lo) = i := by omega
    simp [hback, hi, Nat.not_lt_of_le h, Bool.and_comm]
  · simp [Nat.lt_of_not_le h]

theorem placeX_fieldsOf (w : Word) : placeX (fieldsOf w).x = w &&& 0x0F00#16 := by
  simpa [placeX, fieldsOf, -BitVec.extractLsb'_toNat, -BitVec.toFin_extractLsb'] using shiftLeft_extractLsb'_eq_and w 8 4

theorem placeY_fieldsOf (w : Word) : placeY (fieldsOf w).y = w &&& 0x00F0#16 := by
  simpa [placeY, fieldsOf, -BitVec.extractLsb'_toNat, -BitVec.toFin_extractLsb'] using shiftLeft_extractLsb'_eq_and w 4 4

theorem placeN_fieldsOf (w : Word) : placeN (fieldsOf w).n = w &&& 0x000F#16 := by
  simpa [placeN, fieldsOf, -BitVec.extractLsb'_toNat] using shiftLeft_extractLsb'_eq_and w 0 4

theorem placeNN_fieldsOf (w : Word) : placeNN (fieldsOf w).nn = w &&& 0x00FF#16 := by
  simpa [placeNN, fieldsOf] using shiftLeft_extractLsb'_eq_and w 0 8

theorem placeNNN_fieldsOf (w : Word) : placeNNN (fieldsOf w).nnn = w &&& 0x0FFF#16 := by
  simpa [placeNNN, fieldsOf, -BitVec.extractLsb'_toNat] using shiftLeft_extractLsb'_eq_and w 0 12

/-- What a row builds from a word encodes to the row's fixed bits and the word's own bits wherever the row tests none. -/
theorem encode_build {r : Row} (hr : r ∈ opcodeMap) (w : Word) :
    encode (r.build (fieldsOf w)) = r.pattern ||| w &&& ~~~r.mask := by
  revert r
  simp [opcodeMap, rowsLow, rowsEight, rowsHigh, rowsFifteen, encode, encodeXNN, encodeXY, BitVec.or_assoc,
    placeX_fieldsOf, placeY_fieldsOf, placeN_fieldsOf, placeNN_fieldsOf, placeNNN_fieldsOf,
    ← BitVec.and_or_distrib_left]

theorem encode_of_decodeWord {w : Word} {i : Instr} (h : decodeWord w = some i) : encode i = w := by
  obtain ⟨r, hr, hcovers, rfl⟩ := decodeWord_eq_some_iff.1 h
  calc encode (r.build (fieldsOf w))
    _ = r.pattern ||| w &&& ~~~r.mask := encode_build hr w
    _ = w &&& r.mask ||| w &&& ~~~r.mask := by rw [Row.covers_iff.1 hcovers]
    _ = w := by rw [← BitVec.and_or_distrib_left, BitVec.or_not_self, BitVec.and_allOnes]

/-- Settles O4: the row tests some bits of the word, and the encoder puts all others back. -/
theorem decodedWordsEncodeBack : Obligations.DecodedWordsEncodeBack := fun _ _ h =>
  ⟨encode_of_decodeWord h, Machine.wellFormed_of_decodeWord h⟩

/-! The fields as numbers. -/

theorem toNat_extractLsb'_eq_div_mod (w : Word) (lo len : Nat) :
    (w.extractLsb' lo len).toNat = w.toNat / 2 ^ lo % 2 ^ len := by
  rw [BitVec.extractLsb'_toNat, Nat.shiftRight_eq_div_pow]

/-- Settles O2: each field is a slice of the word. -/
theorem fieldsLieAtTheirBits : Obligations.FieldsLieAtTheirBits := by
  intro w
  have hop : (fieldsOf w).op = w.toNat / 4096 % 16 := toNat_extractLsb'_eq_div_mod w 12 4
  have hx : (fieldsOf w).x.val = w.toNat / 256 % 16 := toNat_extractLsb'_eq_div_mod w 8 4
  have hy : (fieldsOf w).y.val = w.toNat / 16 % 16 := toNat_extractLsb'_eq_div_mod w 4 4
  have hn : (fieldsOf w).n = w.toNat / 1 % 16 := toNat_extractLsb'_eq_div_mod w 0 4
  have hnn : (fieldsOf w).nn.toNat = w.toNat / 1 % 256 := toNat_extractLsb'_eq_div_mod w 0 8
  have hnnn : (fieldsOf w).nnn = w.toNat / 1 % 4096 := toNat_extractLsb'_eq_div_mod w 0 12
  omega

theorem op_lt (w : Word) : (fieldsOf w).op < 16 := (w.extractLsb' 12 4).isLt
theorem n_lt (w : Word) : (fieldsOf w).n < 16 := (w.extractLsb' 0 4).isLt

/-! What a mask leaves of a word, as a number. -/

/-- What two masks without a common bit leave of a word adds up. -/
theorem toNat_and_or {a b : Word} (w : Word) (h : a &&& b = 0#16) :
    (w &&& (a ||| b)).toNat = (w &&& a).toNat + (w &&& b).toNat := by
  have hdisjoint : w &&& a &&& (w &&& b) = 0#16 := by
    rw [BitVec.and_assoc, BitVec.and_comm w b, ← BitVec.and_assoc a, h]
    simp
  rw [BitVec.and_or_distrib_left, ← BitVec.add_eq_or_of_and_eq_zero _ _ hdisjoint,
    BitVec.toNat_add_of_and_eq_zero hdisjoint]

theorem toNat_and_000F (w : Word) : (w &&& 0x000F#16).toNat = (fieldsOf w).n := by
  obtain ⟨-, -, -, hn, -⟩ := fieldsLieAtTheirBits w
  exact (Nat.and_two_pow_sub_one_eq_mod w.toNat 4).trans hn.symm

theorem toNat_and_00FF (w : Word) : (w &&& 0x00FF#16).toNat = (fieldsOf w).nn.toNat := by
  obtain ⟨-, -, -, -, hnn, -⟩ := fieldsLieAtTheirBits w
  exact (Nat.and_two_pow_sub_one_eq_mod w.toNat 8).trans hnn.symm

theorem and_FFFF (w : Word) : w &&& 0xFFFF#16 = w := BitVec.and_allOnes

theorem toNat_and_F000 (w : Word) : (w &&& 0xF000#16).toNat = 4096 * (fieldsOf w).op := by
  have hlow : (w &&& 0x0FFF#16).toNat = w.toNat % 4096 := Nat.and_two_pow_sub_one_eq_mod w.toNat 12
  have hsum : (w &&& 0xFFFF#16).toNat = (w &&& 0xF000#16).toNat + (w &&& 0x0FFF#16).toNat :=
    toNat_and_or (a := 0xF000) (b := 0x0FFF) w (by decide)
  obtain ⟨hop, -⟩ := fieldsLieAtTheirBits w
  rw [and_FFFF] at hsum
  omega

theorem toNat_and_F00F (w : Word) : (w &&& 0xF00F#16).toNat = 4096 * (fieldsOf w).op + (fieldsOf w).n := by
  rw [← toNat_and_F000, ← toNat_and_000F]
  exact toNat_and_or (a := 0xF000) (b := 0x000F) w (by decide)

theorem toNat_and_F0FF (w : Word) : (w &&& 0xF0FF#16).toNat = 4096 * (fieldsOf w).op + (fieldsOf w).nn.toNat := by
  rw [← toNat_and_F000, ← toNat_and_00FF]
  exact toNat_and_or (a := 0xF000) (b := 0x00FF) w (by decide)

/-! What the test of a row says of the fields (R86), for a pattern without bits outside the mask. -/

theorem and_F000_eq_iff {w p : Word} (hp : 4096 * (p.toNat / 4096) = p.toNat) :
    w &&& 0xF000#16 = p ↔ (fieldsOf w).op = p.toNat / 4096 := by
  rw [← BitVec.toNat_inj, toNat_and_F000]
  omega

theorem and_F00F_eq_iff {w p : Word} (hp : 4096 * (p.toNat / 4096) + p.toNat % 16 = p.toNat) :
    w &&& 0xF00F#16 = p ↔ (fieldsOf w).op = p.toNat / 4096 ∧ (fieldsOf w).n = p.toNat % 16 := by
  have hn := n_lt w
  rw [← BitVec.toNat_inj, toNat_and_F00F]
  omega

theorem and_F0FF_eq_iff {w p : Word} (hp : 4096 * (p.toNat / 4096) + p.toNat % 256 = p.toNat) :
    w &&& 0xF0FF#16 = p ↔ (fieldsOf w).op = p.toNat / 4096 ∧ (fieldsOf w).nn = p.setWidth 8 := by
  have hnn := (fieldsOf w).nn.isLt
  rw [← BitVec.toNat_inj, ← BitVec.toNat_inj, BitVec.toNat_setWidth, toNat_and_F0FF]
  omega

/-! The words that no row of a part of the map covers. -/

theorem no_rowsLow_covers_iff (w : Word) : (∀ r ∈ rowsLow, ¬r.covers w = true) ↔
    w ≠ 0x00E0 ∧ w ≠ 0x00EE ∧ (fieldsOf w).op ∉ [1, 2, 3, 4] ∧ ((fieldsOf w).op = 5 → (fieldsOf w).n ≠ 0) ∧
      (fieldsOf w).op ∉ [6, 7] := by
  simp [rowsLow, Row.covers_iff, and_F000_eq_iff, and_F00F_eq_iff, and_FFFF, and_assoc]

theorem no_rowsEight_covers_iff (w : Word) : (∀ r ∈ rowsEight, ¬r.covers w = true) ↔
    ((fieldsOf w).op = 8 → (fieldsOf w).n ∈ [8, 9, 10, 11, 12, 13, 15]) := by
  have hn := n_lt w
  simp [rowsEight, Row.covers_iff, and_F00F_eq_iff]
  omega

theorem no_rowsHigh_covers_iff (w : Word) : (∀ r ∈ rowsHigh, ¬r.covers w = true) ↔
    ((fieldsOf w).op = 9 → (fieldsOf w).n ≠ 0) ∧ (fieldsOf w).op ∉ [10, 11, 12, 13] ∧
      ((fieldsOf w).op = 14 → (fieldsOf w).nn ∉ [0x9E, 0xA1]) := by
  simp [rowsHigh, Row.covers_iff, and_F000_eq_iff, and_F00F_eq_iff, and_F0FF_eq_iff, imp_and, and_assoc]

theorem no_rowsFifteen_covers_iff (w : Word) : (∀ r ∈ rowsFifteen, ¬r.covers w = true) ↔
    ((fieldsOf w).op = 15 → (fieldsOf w).nn ∉ [0x07, 0x0A, 0x15, 0x18, 0x1E, 0x29, 0x33, 0x55, 0x65]) := by
  simp [rowsFifteen, Row.covers_iff, and_F0FF_eq_iff, imp_and]

/-- Settles O6: the top nibble of the word leaves one class of R90, or none. -/
theorem unimplementedWordsAreTheSixClasses : Obligations.UnimplementedWordsAreTheSixClasses := by
  intro w
  have hop := op_lt w
  have hcls : w = 0x00E0 → (fieldsOf w).op = 0 := by rintro rfl; rfl
  have hret : w = 0x00EE → (fieldsOf w).op = 0 := by rintro rfl; rfl
  simp only [decodeWord_eq_none_iff, opcodeMap, List.forall_mem_append, no_rowsLow_covers_iff,
    no_rowsEight_covers_iff, no_rowsHigh_covers_iff, no_rowsFifteen_covers_iff]
  generalize (fieldsOf w).op = op at *
  interval_cases op <;> simp_all

/-- Settles O1: fixed words, which the decoder reads by computation. -/
theorem wordsOfTheOpcodeMapDecode : Obligations.WordsOfTheOpcodeMapDecode := by
  unfold Obligations.WordsOfTheOpcodeMapDecode
  decide

end Sys2Proof

/-! ### Control transfer -/

namespace Sys2Proof.Machine

theorem lt_of_nnnFits {nnn : Nat} (h : nnnFits nnn = true) : nnn < 4096 := of_decide_eq_true h

/-- The offset jump's sum does not wrap: it stays below 65536 (R103). -/
theorem zext_add_target_toNat (b : Byte) {nnn : Nat} (h : nnn < 4096) : (zext b + target nnn).toNat = b.toNat + nnn := by
  have hb := b.isLt
  rw [BitVec.toNat_add, zext_toNat, target_toNat h]
  omega

/-- A conditional skip and nothing else is what `skipsWhen` says. -/
theorem skipsWhen_of_skipIf {i : Instr} {s : State} {c : Prop} [Decidable c]
    (h : exec i s = .next (s.skipIf (decide c))) : skipsWhen i s c :=
  ⟨_, h, fun hc => by simp [hc], fun hc => by simp [hc], sameExcept_skipIf s _⟩

theorem State.push_stack_same {s : State} (w : Word) (h : s.sp < Config.stackCapacity) : (s.push w).stack s.sp = w := by
  simp [State.push_stack, h]

theorem State.push_stack_other (s : State) (w : Word) {k : Nat} (h : k ≠ s.sp) : (s.push w).stack k = s.stack k := by
  simp [State.push_stack, h]

theorem exec_call_of_room {s : State} (nnn : Nat) (h : s.sp < Config.stackCapacity) :
    exec (.call nnn) s = .next ((s.push s.pc).setPc (target nnn)) := if_neg (Nat.not_le.2 h)

theorem exec_ret_of_entry {s : State} (h : 0 < s.sp) : exec .ret s = .next (s.pop.setPc (s.stack (s.sp - 1))) :=
  if_neg h.ne'

theorem sameExcept_push_setPc (s : State) (w a : Word) : sameExcept [.pc, .stack] s ((s.push w).setPc a) := by
  simp [sameExcept]

theorem sameExcept_pop_setPc (s : State) (a : Word) : sameExcept [.pc, .stack] s (s.pop.setPc a) := by
  simp [sameExcept]

/-- Settles O14. -/
theorem jumpGoesToItsAddress : Obligations.JumpGoesToItsAddress := fun s _ h =>
  ⟨_, rfl, target_toNat (lt_of_nnnFits h), sameExcept_setPc s _⟩

/-- Settles O15. -/
theorem offsetJumpAddsV0 : Obligations.OffsetJumpAddsV0 := fun s _ h =>
  ⟨_, rfl, zext_add_target_toNat (s.reg 0) (lt_of_nnnFits h), sameExcept_setPc s _⟩

/-- Settles O16. -/
theorem skipsCompareAndSkip : Obligations.SkipsCompareAndSkip := fun _ _ _ _ =>
  ⟨skipsWhen_of_skipIf rfl, skipsWhen_of_skipIf rfl, skipsWhen_of_skipIf rfl, skipsWhen_of_skipIf rfl⟩

/-- Settles O17. -/
theorem callPushesTheReturnAddress : Obligations.CallPushesTheReturnAddress := fun s nnn h hroom =>
  ⟨_, exec_call_of_room nnn hroom, target_toNat (lt_of_nnnFits h), rfl, State.push_stack_same s.pc hroom,
    fun _ hk => s.push_stack_other s.pc hk, sameExcept_push_setPc s _ _⟩

/-- Settles O18. -/
theorem returnPopsTheReturnAddress : Obligations.ReturnPopsTheReturnAddress := fun s hentry =>
  ⟨_, exec_ret_of_entry hentry, rfl, rfl, fun _ => rfl, sameExcept_pop_setPc s _⟩

theorem step_call_of_room {s : State} {nnn : Nat} (ha : s.active = true) (hf : s.fetchable = true)
    (hd : decodeWord s.fetchWord = some (.call nnn)) (hroom : s.sp < Config.stackCapacity) :
    step s = .next ((s.advance.push (s.pc + 2)).setPc (target nnn)) :=
  (step_of_decode ha hf hd).trans (exec_call_of_room nnn hroom)

theorem step_ret_of_entry {s : State} (ha : s.active = true) (hf : s.fetchable = true)
    (hd : decodeWord s.fetchWord = some .ret) (hentry : 0 < s.sp) :
    step s = .next (s.advance.pop.setPc (s.stack (s.sp - 1))) :=
  (step_of_decode ha hf hd).trans (exec_ret_of_entry hentry)

/-- Settles O20: the call leaves the gate open and memory as it was, so that the second step fetches the return, which
pops the entry that the call pushed. -/
theorem callThenReturnComesBack : Obligations.CallThenReturnComesBack := by
  intro s nnn hrun hfault hpc hcall hroom hnnn hret
  have htarget : (target nnn).toNat = nnn := target_toNat (by omega)
  have hstep := step_call_of_room (s.active_iff.2 ⟨hrun, hfault⟩) (s.fetchable_iff.2 hpc) hcall hroom
  have htop := State.push_stack_same (s := s.advance) (s.pc + 2) hroom
  generalize ht : (s.advance.push (s.pc + 2)).setPc (target nnn) = t at hstep
  have hactive : t.active = true := t.active_iff.2 (ht ▸ ⟨hrun, hfault⟩)
  have htpc : t.pc.toNat = nnn := ht ▸ htarget
  have hdecode : decodeWord t.fetchWord = some .ret := by
    have hmem : t.mem = s.mem := ht ▸ rfl
    rw [State.fetchWord, hmem, htpc, hret]
    exact decodeWord_encode (i := .ret) rfl
  have hsp : t.sp = s.sp + 1 := ht ▸ rfl
  have hstack : t.stack (t.sp - 1) = s.pc + 2 := by
    rw [hsp, ← ht]
    exact htop
  have hentry : 0 < t.sp := by omega
  exact ⟨t, _, hstep, step_ret_of_entry hactive (t.fetchable_iff.2 (by omega)) hdecode hentry, htpc, hstack,
    by simp [hsp]⟩

end Sys2Proof.Machine

/-! ### Register load, arithmetic, logic, shift and random -/

namespace Sys2Proof.Machine

/-! What the byte operations say as numbers modulo 256 (R12). -/

theorem add_eq_ofNat (p q : Byte) : p + q = BitVec.ofNat 8 ((p.toNat + q.toNat) % 256) := by
  apply BitVec.eq_of_toNat_eq
  simp

theorem sub_eq_ofNat (p q : Byte) : p - q = BitVec.ofNat 8 ((p.toNat + 256 - q.toNat) % 256) := by
  have hq := q.isLt
  apply BitVec.eq_of_toNat_eq
  rw [BitVec.toNat_sub, BitVec.toNat_ofNat]
  omega

theorem ushiftRight_one_eq_ofNat (p : Byte) : p >>> 1 = BitVec.ofNat 8 (p.toNat / 2) := by
  have hp := p.isLt
  apply BitVec.eq_of_toNat_eq
  rw [BitVec.toNat_ushiftRight, BitVec.toNat_ofNat, Nat.shiftRight_eq_div_pow]
  omega

theorem shiftLeft_one_eq_ofNat (p : Byte) : p <<< 1 = BitVec.ofNat 8 (2 * p.toNat % 256) := by
  apply BitVec.eq_of_toNat_eq
  rw [BitVec.toNat_shiftLeft, BitVec.toNat_ofNat, Nat.shiftLeft_eq]
  omega

/-! What the flags say as numbers (R135). -/

theorem flagByte_decide (c : Prop) [Decidable c] : flagByte (decide c) = if c then 1 else 0 := by
  simp [flagByte]

theorem carry_eq (p q : Byte) : carry p q = if p.toNat + q.toNat > 255 then 1 else 0 := flagByte_decide _

theorem notBorrow_eq (p q : Byte) : notBorrow p q = if q.toNat ≤ p.toNat then 1 else 0 := flagByte_decide _

/-- A bit as a flag is that bit of the number. -/
theorem flagByte_getLsbD (p : Byte) (k : Nat) : flagByte (p.getLsbD k) = BitVec.ofNat 8 (p.toNat / 2 ^ k % 2) := by
  rw [BitVec.getLsbD, Nat.testBit_eq_decide_div_mod_eq, flagByte_decide]
  rcases Nat.mod_two_eq_zero_or_one (p.toNat / 2 ^ k) with h | h
  · rw [h]
    rfl
  · rw [h]
    rfl

theorem shiftedOutRight_eq (p : Byte) : shiftedOutRight p = BitVec.ofNat 8 (p.toNat % 2) := by
  rw [shiftedOutRight, flagByte_getLsbD, pow_zero, Nat.div_one]

/-- The top bit of a byte is its quotient by 128. -/
theorem shiftedOutLeft_eq (p : Byte) : shiftedOutLeft p = BitVec.ofNat 8 (p.toNat / 128) := by
  have htop : p.toNat / 2 ^ 7 % 2 = p.toNat / 128 := by
    have hp := p.isLt
    omega
  rw [shiftedOutLeft, flagByte_getLsbD, htop]

/-! The instructions, each a register write, or a register write and its flag (R120 to R130). -/

/-- Settles O7. -/
theorem loadsAndLogicWriteOnlyTheirRegister : Obligations.LoadsAndLogicWriteOnlyTheirRegister := fun _ _ _ _ =>
  ⟨writesOnly_of_setReg rfl, writesOnly_of_setReg rfl, writesOnly_of_setReg rfl, writesOnly_of_setReg rfl,
    writesOnly_of_setReg rfl⟩

/-- Settles O8. -/
theorem addConstantWrapsWithoutFlag : Obligations.AddConstantWrapsWithoutFlag := by
  intro s x nn
  rw [← add_eq_ofNat]
  exact writesOnly_of_setReg rfl

/-- Settles O9. -/
theorem addRegistersSetsCarry : Obligations.AddRegistersSetsCarry := by
  intro s x y
  rw [← add_eq_ofNat, ← carry_eq]
  exact writesWithFlag_of_setRegFlag rfl

/-- Settles O10. -/
theorem subtractionsSetNotBorrow : Obligations.SubtractionsSetNotBorrow := by
  intro s x y
  rw [← sub_eq_ofNat, ← sub_eq_ofNat, ← notBorrow_eq, ← notBorrow_eq]
  exact ⟨writesWithFlag_of_setRegFlag rfl, writesWithFlag_of_setRegFlag rfl⟩

/-- Settles O11. -/
theorem shiftsMoveOneBitIntoFlag : Obligations.ShiftsMoveOneBitIntoFlag := by
  intro s x y
  rw [← ushiftRight_one_eq_ofNat, ← shiftedOutRight_eq, ← shiftLeft_one_eq_ofNat, ← shiftedOutLeft_eq]
  exact ⟨writesWithFlag_of_setRegFlag rfl, writesWithFlag_of_setRegFlag rfl⟩

/-! The draw of a random byte (R131). -/

theorem State.drawnByte_of_given {s : State} {b : Byte} (h : s.rndIn = some b) : s.drawnByte = b := by
  rw [State.drawnByte, h]

theorem State.drawnByte_of_free {s : State} (h : s.rndIn = none) : s.drawnByte = Config.randomByte s.draws := by
  rw [State.drawnByte, h]

theorem regsSameExcept_afterDraw_setReg (s : State) (x : Reg) (b : Byte) :
    regsSameExcept [x] s (s.afterDraw.setReg x b) := by
  intro r hr
  rw [State.setReg_reg_other _ b (by simpa using hr), State.afterDraw_reg]

theorem sameExcept_afterDraw_setReg (s : State) (x : Reg) (b : Byte) :
    sameExcept [.regs, .random] s (s.afterDraw.setReg x b) := by
  simp [sameExcept]

/-- Settles O12: the byte and the draw counter by whether the host gave a byte. -/
theorem randomByteIsMasked : Obligations.RandomByteIsMasked := fun s x nn =>
  ⟨s.afterDraw.setReg x (s.drawnByte &&& nn), s.drawnByte, rfl, State.setReg_reg_same _ x _,
    regsSameExcept_afterDraw_setReg s x _, sameExcept_afterDraw_setReg s x _, s.afterDraw_rndIn,
    fun _ hgiven => ⟨State.drawnByte_of_given hgiven, by simp [hgiven]⟩,
    fun hfree => ⟨State.drawnByte_of_free hfree, by simp [hfree]⟩⟩

/-! What a flag writer leaves in `VF` (R137). -/

/-- A register write with a computed flag leaves 0 or 1 in `VF`, whichever register is written. -/
theorem reg_VF_zero_or_one_of_setRegFlag {s t : State} {x : Reg} {b : Byte} {c : Bool}
    (h : (.next (s.setRegFlag x b (flagByte c)) : Result) = .next t) : t.reg VF = 0 ∨ t.reg VF = 1 := by
  cases h
  rw [State.setRegFlag, State.setReg_reg_same]
  exact flagByte_zero_or_one c

/-- A draw that raises no fault leaves its collision flag (R164). -/
theorem reg_VF_zero_or_one_of_drawSprite {mode : EdgeMode} {x y : Reg} {n : Nat} {s t : State}
    (h : drawSprite mode x y n s = .next t) (hfault : t.fault = .none) : t.reg VF = 0 ∨ t.reg VF = 1 := by
  by_cases hrange : n = 0 ∨ s.i.toNat + n - 1 ≤ 4095
  · rw [drawSprite_of_inRange mode x y hrange] at h
    cases h
    rw [State.setReg_reg_same]
    exact flagByte_zero_or_one _
  · rw [drawSprite_of_outOfRange mode x y hrange] at h
    cases h
    cases hfault

/-- Settles O13: five of the six write a register and then the flag; the draw may fault first. -/
theorem flagIsZeroOrOneAfterFlagWriters : Obligations.FlagIsZeroOrOneAfterFlagWriters := by
  intro s t i x y n hi _ h hfault
  simp only [List.mem_cons, List.not_mem_nil, or_false] at hi
  obtain rfl | rfl | rfl | rfl | rfl | rfl := hi
  · exact reg_VF_zero_or_one_of_setRegFlag h
  · exact reg_VF_zero_or_one_of_setRegFlag h
  · exact reg_VF_zero_or_one_of_setRegFlag h
  · exact reg_VF_zero_or_one_of_setRegFlag h
  · exact reg_VF_zero_or_one_of_setRegFlag h
  · exact reg_VF_zero_or_one_of_drawSprite h hfault

end Sys2Proof.Machine

/-! ### Index register and memory transfer -/

namespace Sys2Proof.Machine

/-! The index register (R140 to R142). -/

/-- A byte added to an index is added modulo 65536 (R141). -/
theorem add_zext_toNat (w : Word) (b : Byte) : (w + zext b).toNat = (w.toNat + b.toNat) % 65536 := by
  rw [BitVec.toNat_add, zext_toNat]

/-- Five times a byte is at most 1275: the product does not wrap (R142). -/
theorem zext_mul_five_toNat (b : Byte) : (zext b * 5).toNat = b.toNat * 5 := by
  have hb := b.isLt
  have hlt : b.toNat * 5 < 65536 := by omega
  rw [BitVec.toNat_mul, zext_toNat]
  exact Nat.mod_eq_of_lt hlt

theorem sameExcept_index (s : State) (w : Word) : sameExcept [.index] s { s with i := w } := by
  simp [sameExcept, State.reg, State.stack, State.cell, State.read]

/-- Settles O21. -/
theorem loadIndexTakesItsAddress : Obligations.LoadIndexTakesItsAddress := fun s _ h =>
  ⟨_, rfl, target_toNat (lt_of_nnnFits h), sameExcept_index s _⟩

/-- Settles O22. -/
theorem indexArithmetic : Obligations.IndexArithmetic := fun s x =>
  ⟨⟨_, rfl, add_zext_toNat s.i (s.reg x), sameExcept_index s _⟩,
    ⟨_, rfl, zext_mul_five_toNat (s.reg x), sameExcept_index s _⟩⟩

/-! Bytes stored from `I` on: the next state of FX33 and FX55 within memory (R143, R144). -/

/-- The bytes `bs` written at `I`, `I+1` and so on. -/
def State.store (s : State) (bs : List Byte) : State := { s with mem := Memory.writeList s.mem s.i.toNat bs }

theorem exec_ldB_of_inRange {s : State} (x : Reg) (h : s.i.toNat + 2 ≤ 4095) :
    exec (.ldB x) s = .next (s.store (digits (s.reg x))) :=
  if_pos ((s.dataInRange_iff 3).2 (.inr h))

theorem exec_stRegs_of_inRange {s : State} {x : Reg} (h : s.i.toNat + x.val ≤ 4095) :
    exec (.stRegs x) s = .next (s.store (s.block x)) :=
  if_pos ((s.dataInRange_iff (x.val + 1)).2 (.inr h))

theorem State.store_read_same {s : State} {bs : List Byte} (hwf : Memory.wf s.mem = true)
    (hin : s.i.toNat + bs.length ≤ Config.memSize) {k : Nat} (hk : k < bs.length) :
    (s.store bs).read (s.i.toNat + k) = bs[k] :=
  Memory.read_writeList_same hwf hk hin

theorem bytesSameOutside_store (s : State) (bs : List Byte) : bytesSameOutside s.i.toNat bs.length s (s.store bs) :=
  fun _ hb => Memory.read_writeList_other s.mem bs hb

theorem sameExcept_store (s : State) (bs : List Byte) : sameExcept [.memory] s (s.store bs) := by
  simp [sameExcept, State.store, State.reg, State.stack, State.cell]

/-! The decimal digits, each below 10 and so held by its byte unreduced (R143). -/

theorem digits_hundreds_toNat (b : Byte) : (digits b)[0].toNat = b.toNat / 100 := by
  have hb := b.isLt
  exact Nat.mod_eq_of_lt (by omega)

theorem digits_tens_toNat (b : Byte) : (digits b)[1].toNat = b.toNat / 10 % 10 := Nat.mod_eq_of_lt (by omega)

theorem digits_ones_toNat (b : Byte) : (digits b)[2].toNat = b.toNat % 10 := Nat.mod_eq_of_lt (by omega)

/-- Settles O23: each of the three bytes from `I` is its entry of `digits`. -/
theorem decimalDigitsAreStored : Obligations.DecimalDigitsAreStored := by
  intro s x hwf hin
  have hlen : s.i.toNat + (digits (s.reg x)).length ≤ Config.memSize := Nat.succ_le_succ hin
  have hread {k : Nat} (hk : k < 3) := State.store_read_same hwf hlen (k := k) hk
  exact ⟨_, exec_ldB_of_inRange x hin,
    (congrArg BitVec.toNat (hread (k := 0) (by decide))).trans (digits_hundreds_toNat _),
    (congrArg BitVec.toNat (hread (k := 1) (by decide))).trans (digits_tens_toNat _),
    (congrArg BitVec.toNat (hread (k := 2) (by decide))).trans (digits_ones_toNat _),
    bytesSameOutside_store s (digits _), sameExcept_store s _⟩

/-- A stored register block holds `V[k]` at `I + k` (R144). -/
theorem State.store_block_read {s : State} {x k : Reg} (hwf : Memory.wf s.mem = true) (hin : s.i.toNat + x.val ≤ 4095)
    (hk : k ≤ x) : (s.store (s.block x)).read (s.i.toNat + k.val) = s.reg k := by
  have hlen := s.block_length x
  have hlt : k.val < (s.block x).length := hlen ▸ Nat.lt_succ_of_le hk
  rw [State.store_read_same hwf (hlen ▸ Nat.succ_le_succ hin) hlt, State.getElem_block]

/-- Settles O24. -/
theorem registerBlockIsStored : Obligations.RegisterBlockIsStored := fun s x hwf hin =>
  ⟨_, exec_stRegs_of_inRange hin, fun _ hk => State.store_block_read hwf hin hk,
    s.block_length x ▸ bytesSameOutside_store s (s.block x), sameExcept_store s _⟩

/-! The register block loaded from `I` on: the next state of FX65 within memory (R145). -/

/-- The bytes `I` to `I+X` in `V[0]` to `V[X]`. -/
def State.load (s : State) (x : Reg) : State :=
  { s with v := loadBlock s.v 0 (Memory.readList s.mem s.i.toNat (x.val + 1)) }

theorem exec_ldRegs_of_inRange {s : State} {x : Reg} (h : s.i.toNat + x.val ≤ 4095) :
    exec (.ldRegs x) s = .next (s.load x) :=
  if_pos ((s.dataInRange_iff (x.val + 1)).2 (.inr h))

theorem State.load_reg_of_le (s : State) {x k : Reg} (hk : k ≤ x) : (s.load x).reg k = s.read (s.i.toNat + k.val) := by
  have hin : 0 ≤ k.val ∧ k.val < 0 + (Memory.readList s.mem s.i.toNat (x.val + 1)).length := by
    have hle : k.val ≤ x.val := hk
    rw [Memory.readList_length]
    omega
  simp only [State.load, State.reg, getElem_loadBlock, dif_pos hin, Memory.getElem_readList]
  rfl

theorem State.load_reg_of_lt (s : State) {x k : Reg} (hk : x < k) : (s.load x).reg k = s.reg k :=
  reg_of_loadBlock s (Memory.readList_length _ _ _) hk

theorem sameExcept_load (s : State) (x : Reg) : sameExcept [.regs] s (s.load x) := by
  simp [sameExcept, State.load, State.stack, State.cell, State.read]

/-- Settles O25. -/
theorem registerBlockIsLoaded : Obligations.RegisterBlockIsLoaded := fun s x hin =>
  ⟨_, exec_ldRegs_of_inRange hin, fun _ hk => s.load_reg_of_le hk, fun _ hk => s.load_reg_of_lt hk, sameExcept_load s x⟩

/-- Settles O26: the store leaves `I`, so that the load reads the bytes the store wrote. -/
theorem storedBlockLoadsBack : Obligations.StoredBlockLoadsBack := by
  intro s t u x hwf hin hst hmem hi
  rw [exec_stRegs_of_inRange hin] at hst
  cases hst
  have hui : u.i = s.i := hi
  refine ⟨_, exec_ldRegs_of_inRange (hui ▸ hin), fun k hk => ?_⟩
  calc (u.load x).reg k = u.read (u.i.toNat + k.val) := u.load_reg_of_le hk
    _ = (s.store (s.block x)).read (s.i.toNat + k.val) := by rw [State.read, State.read, hmem, hui]
    _ = s.reg k := State.store_block_read hwf hin hk

end Sys2Proof.Machine

/-! ### Display -/

namespace Sys2Proof.Machine

/-! What the execute phase reports (R201). -/

/-- The execute phase leaves a next state without a fault. -/
def completes (i : Instr) (s : State) : Prop := ∃ t, exec i s = .next t ∧ t.fault = .none

/-- A flag of the result that `quiet` has at 0 comes from an instruction that completes. -/
theorem flag_execResult_iff {f : CycleResult → Bool} (hf : ∀ st, f (quiet st) = false) (i : Instr) (s : State) :
    f (execResult i s) = true ↔ completes i s ∧ f ⟨.ok, redrawOf i, toneOf i s⟩ = true := by
  unfold execResult completes
  cases exec i s with
  | next t =>
    by_cases ht : t.fault = .none
    · simp [ht]
    · simp [ht, hf]
  | fault e => cases e
  | refused e => simp [hf]

/-! The cleared display (R160). -/

theorem blankDisp_cell (y x : Nat) : Disp.cell blankDisp y x = false := State.reset_cell y x

theorem sameExcept_display (s : State) (d : Disp) : sameExcept [.display] s { s with disp := d } := by
  simp [sameExcept, State.reg, State.stack, State.read]

/-- An instruction for which `redrawOf` is false reports no redraw, whether it completes or faults (R163). -/
theorem execResult_redraw_of_redrawOf {i : Instr} (s : State) (h : redrawOf i = false) :
    (execResult i s).redraw = false := by
  rw [Bool.eq_false_iff, ne_eq, flag_execResult_iff (f := CycleResult.redraw) fun _ => rfl]
  exact fun ⟨_, hredraw⟩ => Bool.false_ne_true (h.symm.trans hredraw)

/-- Settles O28. -/
theorem clearBlanksTheDisplay : Obligations.ClearBlanksTheDisplay := fun s =>
  ⟨_, rfl, blankDisp_cell, sameExcept_display s blankDisp, rfl, execResult_redraw_of_redrawOf s rfl⟩

/-! The next state of a draw whose sprite lies in memory (R161). -/

/-- The sprite XORed into the display, and then the collision in `VF`. -/
def State.withSprite (mode : EdgeMode) (s : State) (x y : Reg) (n : Nat) : State :=
  { s with disp := (s.drawn mode x y n).disp }.setReg VF (flagByte (s.drawn mode x y n).coll)

theorem exec_drw_of_inRange {s : State} {x y : Reg} {n : Nat} (h : n = 0 ∨ s.i.toNat + n - 1 ≤ 4095) :
    exec (.drw x y n) s = .next (s.withSprite .clip x y n) := drawSprite_of_inRange .clip x y h

theorem exec_drw_of_outOfRange {s : State} {x y : Reg} {n : Nat} (h : ¬(n = 0 ∨ s.i.toNat + n - 1 ≤ 4095)) :
    exec (.drw x y n) s = raise .dataOutOfRange (encode (.drw x y n)) s := drawSprite_of_outOfRange .clip x y h

section
variable (mode : EdgeMode) (s : State) (x y : Reg) (n : Nat)

theorem State.withSprite_reg_VF : (s.withSprite mode x y n).reg VF = flagByte (s.drawn mode x y n).coll :=
  State.setReg_reg_same _ _ _

theorem State.withSprite_reg_other {r : Reg} (h : r ≠ VF) : (s.withSprite mode x y n).reg r = s.reg r :=
  State.setReg_reg_other { s with disp := (s.drawn mode x y n).disp } _ h

theorem sameExcept_withSprite : sameExcept [.regs, .display] s (s.withSprite mode x y n) := by
  simp [sameExcept, State.withSprite, State.stack, State.read]

/-- A clipped draw XORs into each cell the sprite bit that lands on it. -/
theorem State.withSprite_cell {row col : Nat} (hr : row < 32) (hc : col < 64) :
    (s.withSprite .clip x y n).cell row col = Bool.xor (s.cell row col) (spriteBit s x y n row col) := by
  rw [← spriteCovers_eq_spriteBit]
  exact (Canvas.drawRows_clip _ _ _ _).1 row col hr hc

/-- A clipped draw finds a collision exactly where a set sprite bit lands on a set cell (R164). -/
theorem State.drawn_coll_iff : (s.drawn .clip x y n).coll = true ↔
    ∃ row col, row < 32 ∧ col < 64 ∧ s.cell row col = true ∧ spriteBit s x y n row col = true := by
  simp only [← spriteCovers_eq_spriteBit]
  exact (Canvas.drawRows_clip _ _ _ _).2.trans (or_iff_right Bool.false_ne_true)

variable {s x y n}

theorem State.withSprite_reg_VF_of_collision
    (h : ∃ row col, row < 32 ∧ col < 64 ∧ s.cell row col = true ∧ spriteBit s x y n row col = true) :
    (s.withSprite .clip x y n).reg VF = 1 := by
  rw [State.withSprite_reg_VF, (s.drawn_coll_iff x y n).2 h]
  rfl

theorem State.withSprite_reg_VF_of_no_collision
    (h : ∀ row col, row < 32 → col < 64 → s.cell row col = true → spriteBit s x y n row col = false) :
    (s.withSprite .clip x y n).reg VF = 0 := by
  have hcoll : (s.drawn .clip x y n).coll = false := by
    rw [Bool.eq_false_iff, ne_eq, s.drawn_coll_iff]
    rintro ⟨row, col, hr, hc, hset, hbit⟩
    exact Bool.false_ne_true ((h row col hr hc hset).symm.trans hbit)
  rw [State.withSprite_reg_VF, hcoll]
  rfl

end

/-- Settles O29. -/
theorem drawXorsTheSprite : Obligations.DrawXorsTheSprite := fun s x y n h =>
  ⟨_, exec_drw_of_inRange h, fun _ _ => s.withSprite_cell x y n, State.withSprite_reg_VF_of_collision,
    State.withSprite_reg_VF_of_no_collision, fun _ hr => s.withSprite_reg_other .clip x y n (by simpa using hr),
    sameExcept_withSprite .clip s x y n⟩

/-! The same draw again (R166): the first draw leaves `I` and memory, and `V[X]` and `V[Y]` when neither is `VF`. -/

/-- In either mode the rows of a sprite drawn twice cancel out: both times they XOR the same mask. -/
theorem Canvas.drawRows_twice (mode : EdgeMode) (x0 y : Nat) (bs : List Byte) (d : Disp) (b b' : Bool) :
    (Canvas.drawRows mode x0 y bs ⟨(Canvas.drawRows mode x0 y bs ⟨d, b⟩).disp, b'⟩).disp = d := by
  obtain ⟨m, hm⟩ := Canvas.drawRows_mask mode x0 y bs
  refine Disp.ext_cell fun r k hr hk => ?_
  rw [hm _ r k hr hk, hm _ r k hr hk, Bool.xor_assoc, Bool.xor_self, Bool.xor_false]

section
variable {x y : Reg} (hx : x ≠ VF) (hy : y ≠ VF)
include hx hy

theorem State.withSprite_twice_disp (mode : EdgeMode) (s : State) (n : Nat) :
    ((s.withSprite mode x y n).withSprite mode x y n).disp = s.disp := by
  change ((s.withSprite mode x y n).drawn mode x y n).disp = s.disp
  rw [State.drawn, State.startColumn, State.startRow, s.withSprite_reg_other mode x y n hx,
    s.withSprite_reg_other mode x y n hy]
  exact Canvas.drawRows_twice mode _ _ _ s.disp false false

theorem spriteBit_withSprite (mode : EdgeMode) (s : State) (n row col : Nat) :
    spriteBit (s.withSprite mode x y n) x y n row col = spriteBit s x y n row col := by
  unfold spriteBit
  rw [s.withSprite_reg_other mode x y n hx, s.withSprite_reg_other mode x y n hy]
  rfl

end

/-- Settles O30: the second draw completes as well, `I` being the same. -/
theorem drawingTwiceRestoresTheDisplay : Obligations.DrawingTwiceRestoresTheDisplay := by
  intro mode s t x y n hx hy h hst
  rw [drawSprite_of_inRange mode x y h] at hst
  cases hst
  exact ⟨_, drawSprite_of_inRange mode x y h, State.withSprite_twice_disp hx hy mode s n⟩

/-- Settles O31: the first draw sets the cell on which the given bit lands, and the second finds it set. -/
theorem secondDrawCollides : Obligations.SecondDrawCollides := by
  intro s t u x y n row col hx hy h hblank hr hc hbit hst htu
  rw [exec_drw_of_inRange h] at hst
  cases hst
  rw [exec_drw_of_inRange (s := s.withSprite .clip x y n) h] at htu
  cases htu
  have hset : (s.withSprite .clip x y n).cell row col = true := by
    rw [s.withSprite_cell x y n hr hc, hblank, hbit]
    rfl
  have hbit' := (spriteBit_withSprite hx hy .clip s n row col).trans hbit
  exact ⟨State.withSprite_reg_VF_of_no_collision fun r c _ _ hcell => by simp [hblank] at hcell,
    State.withSprite_reg_VF_of_collision ⟨row, col, hr, hc, hset, hbit'⟩⟩

/-! What a step reports (R163, R178, R201). -/

/-- In a step, from the instruction that an open gate and a fetch within memory give. -/
theorem flag_cycleResult_iff {f : CycleResult → Bool} (hf : ∀ st, f (quiet st) = false) (s : State) :
    f (cycleResult s) = true ↔ s.active = true ∧ s.pc.toNat ≤ 4094 ∧ ∃ i, decodeWord s.fetchWord = some i ∧
      completes i s.advance ∧ f ⟨.ok, redrawOf i, toneOf i s.advance⟩ = true := by
  rw [← s.fetchable_iff]
  simp only [← flag_execResult_iff hf]
  unfold cycleResult
  by_cases hactive : s.active = true
  · by_cases hfetch : s.fetchable = true
    · cases hd : decodeWord s.fetchWord with
      | some i => simp [hactive, hfetch]
      | none => simp [hactive, hfetch, hf]
    · simp [hactive, hfetch, hf]
  · simp [hactive, hf]

section
variable {s : State} (hs : s.fault = .none)
include hs

theorem completes_drw_iff (x y : Reg) (n : Nat) : completes (.drw x y n) s ↔ n = 0 ∨ s.i.toNat + n - 1 ≤ 4095 := by
  constructor
  · rintro ⟨t, hst, ht⟩
    by_contra hout
    rw [exec_drw_of_outOfRange hout] at hst
    cases hst
    cases ht
  · exact fun hin => ⟨_, exec_drw_of_inRange hin, hs⟩

theorem completes_ldStVx (x : Reg) : completes (.ldStVx x) s := ⟨_, rfl, hs⟩

end

theorem redrawOf_iff (i : Instr) : redrawOf i = true ↔ ∃ x y n, i = .drw x y n := by
  cases i with
  | drw x y n => exact iff_of_true rfl ⟨x, y, n, rfl⟩
  | _ => simp [redrawOf]

theorem toneOf_iff (i : Instr) (s : State) : toneOf i s = true ↔ ∃ x, i = .ldStVx x ∧ s.reg x ≠ 0 := by
  cases i with
  | ldStVx x => simp [toneOf]
  | _ => simp [toneOf]

theorem fault_advance_of_active {s : State} (h : s.active = true) : s.advance.fault = .none := (s.active_iff.1 h).2

theorem cycleResult_redraw_iff (s : State) : (cycleResult s).redraw = true ↔ s.active = true ∧ s.pc.toNat ≤ 4094 ∧
    ∃ x y n, decodeWord s.fetchWord = some (.drw x y n) ∧ (n = 0 ∨ s.i.toNat + n - 1 ≤ 4095) := by
  rw [flag_cycleResult_iff (f := CycleResult.redraw) fun _ => rfl]
  refine and_congr_right fun hactive => and_congr_right fun _ => ?_
  have hs := fault_advance_of_active hactive
  constructor
  · rintro ⟨i, hd, hdone, hredraw⟩
    obtain ⟨x, y, n, rfl⟩ := (redrawOf_iff i).1 hredraw
    exact ⟨x, y, n, hd, (completes_drw_iff hs x y n).1 hdone⟩
  · rintro ⟨x, y, n, hd, hin⟩
    exact ⟨_, hd, (completes_drw_iff hs x y n).2 hin, rfl⟩

theorem cycleResult_tone_iff (s : State) : (cycleResult s).tone = true ↔ s.active = true ∧ s.pc.toNat ≤ 4094 ∧
    ∃ x, decodeWord s.fetchWord = some (.ldStVx x) ∧ s.reg x ≠ 0 := by
  rw [flag_cycleResult_iff (f := CycleResult.tone) fun _ => rfl]
  refine and_congr_right fun hactive => and_congr_right fun _ => ?_
  constructor
  · rintro ⟨i, hd, -, htone⟩
    obtain ⟨x, rfl, hx⟩ := (toneOf_iff i s.advance).1 htone
    exact ⟨x, hd, hx⟩
  · rintro ⟨x, hd, hx⟩
    exact ⟨_, hd, completes_ldStVx (fault_advance_of_active hactive) x, (toneOf_iff _ s.advance).2 ⟨x, rfl, hx⟩⟩

/-- Settles O45. -/
theorem redrawAndToneHaveOneCauseEach : Obligations.RedrawAndToneHaveOneCauseEach := fun s =>
  ⟨cycleResult_redraw_iff s, cycleResult_tone_iff s⟩

end Sys2Proof.Machine

/-! ### Keypad and timers -/

namespace Sys2Proof.Machine

/-! The key tests, by whether the byte names a key (R170, R171, R174). -/

theorem exec_skp_of_keyIndexOk {s : State} {x : Reg} (h : keyIndexOk (s.reg x) = true) :
    exec (.skp x) s = .next (s.skipIf (decide (s.keys.getLsbD (s.reg x).toNat = true))) := by
  rw [Bool.decide_eq_true]
  exact if_pos h

theorem exec_sknp_of_keyIndexOk {s : State} {x : Reg} (h : keyIndexOk (s.reg x) = true) :
    exec (.sknp x) s = .next (s.skipIf (decide (s.keys.getLsbD (s.reg x).toNat = false))) := by
  rw [Bool.decide_eq_false]
  exact if_pos h

theorem exec_skp_of_not_keyIndexOk {s : State} {x : Reg} (h : ¬keyIndexOk (s.reg x) = true) :
    exec (.skp x) s = raise .keyIndexOutOfRange (encode (.skp x)) s := if_neg h

theorem exec_sknp_of_not_keyIndexOk {s : State} {x : Reg} (h : ¬keyIndexOk (s.reg x) = true) :
    exec (.sknp x) s = raise .keyIndexOutOfRange (encode (.sknp x)) s := if_neg h

/-- Settles O32. -/
theorem keyTestsSkipOnTheirKey : Obligations.KeyTestsSkipOnTheirKey := by
  intro s x hle
  have hok := (keyIndexOk_iff (s.reg x)).2 hle
  exact ⟨skipsWhen_of_skipIf (exec_skp_of_keyIndexOk hok), skipsWhen_of_skipIf (exec_sknp_of_keyIndexOk hok)⟩

/-- Settles O33. -/
theorem keyIndexOutOfRangeIsRaised : Obligations.KeyIndexOutOfRangeIsRaised := by
  intro s x hlt
  have hbad := mt (keyIndexOk_iff (s.reg x)).1 hlt.not_ge
  exact ⟨⟨_, exec_skp_of_not_keyIndexOk hbad, raised_of_raise rfl⟩,
    ⟨_, exec_sknp_of_not_keyIndexOk hbad, raised_of_raise rfl⟩⟩

/-! The key wait, by the selected key (R172). -/

/-- No key is selected exactly when `KEYS` is 0, its 16 bits being the 16 keys (R29). -/
theorem selectKey_eq_none_iff_keys (s : State) : selectKey s = none ↔ s.keys = 0 := by
  rw [selectKey_eq_none]
  constructor
  · exact fun h => BitVec.eq_of_getLsbD_eq fun k hk => (h ⟨k, hk⟩).trans BitVec.getLsbD_zero.symm
  · intro h k
    rw [State.pressed, h]
    exact BitVec.getLsbD_zero

theorem exec_ldVxK_of_keys_eq_zero {s : State} (x : Reg) (h : s.keys = 0) :
    exec (.ldVxK x) s = .next (s.setPc (s.pc - 2)) := by
  simp only [exec, execLdVxK, (selectKey_eq_none_iff_keys s).2 h]

theorem exec_ldVxK_of_selectKey {s : State} {k : Reg} (x : Reg) (h : selectKey s = some k) :
    exec (.ldVxK x) s = .next (s.setReg x (BitVec.ofNat 8 k.val)) := by
  simp only [exec, execLdVxK, h]

/-- Settles O34: some key is selected when `KEYS` is not 0, and the selected key is a pressed one. -/
theorem keyWaitTakesAPressedKey : Obligations.KeyWaitTakesAPressedKey := by
  intro s x
  constructor
  · exact fun hkeys => ⟨_, exec_ldVxK_of_keys_eq_zero x hkeys, rfl, sameExcept_setPc s _⟩
  · intro hkeys
    obtain ⟨k, hk⟩ := Option.ne_none_iff_exists'.1 (mt (selectKey_eq_none_iff_keys s).1 hkeys)
    exact ⟨k, pressed_of_selectKey hk, writesOnly_of_setReg (exec_ldVxK_of_selectKey x hk)⟩

/-- Going back by 2 undoes the fetch advance, also where the advance wraps. -/
theorem State.advance_setPc_back (s : State) : s.advance.setPc (s.advance.pc - 2) = s := by
  simp [State.setPc, State.advance]

/-- Settles O35: with the gate shut the step is ignored, with the gate open the wait undoes the fetch advance. -/
theorem keyWaitIsAFixedPointOfTheStep : Obligations.KeyWaitIsAFixedPointOfTheStep := by
  intro s x hpc hdecode hkeys
  by_cases hactive : s.active = true
  · rw [step_of_decode hactive (s.fetchable_iff.2 hpc) hdecode, exec_ldVxK_of_keys_eq_zero (s := s.advance) x hkeys,
      s.advance_setPc_back]
  · exact step_of_not_active (Bool.eq_false_iff.2 hactive)

/-! The timers (R176 to R178), and what the execute phase reports of them (R201). -/

theorem sameExcept_delay (s : State) (b : Byte) : sameExcept [.delay] s { s with dt := b } := by
  simp [sameExcept, State.reg, State.stack, State.cell, State.read]

theorem sameExcept_sound (s : State) (b : Byte) : sameExcept [.sound] s { s with st := b } := by
  simp [sameExcept, State.reg, State.stack, State.cell, State.read]

/-- An instruction for which `toneOf` is false reports no tone, whether it completes or faults (R178). -/
theorem execResult_tone_of_toneOf {i : Instr} {s : State} (h : toneOf i s = false) : (execResult i s).tone = false := by
  rw [Bool.eq_false_iff, ne_eq, flag_execResult_iff (f := CycleResult.tone) fun _ => rfl]
  exact fun ⟨_, htone⟩ => Bool.false_ne_true (h.symm.trans htone)

theorem execResult_of_next {i : Instr} {s t : State} (h : exec i s = .next t) (ht : t.fault = .none) :
    execResult i s = ⟨.ok, redrawOf i, toneOf i s⟩ := by
  simp [execResult, h, ht]

/-- Settles O36. -/
theorem delayTimerIsReadAndWritten : Obligations.DelayTimerIsReadAndWritten := fun s _ =>
  ⟨writesOnly_of_setReg rfl, ⟨_, rfl, rfl, sameExcept_delay s _⟩, execResult_tone_of_toneOf rfl,
    execResult_tone_of_toneOf rfl⟩

/-- Settles O37. -/
theorem soundTimerIsWritten : Obligations.SoundTimerIsWritten := fun s _ hfault =>
  ⟨⟨_, rfl, rfl, sameExcept_sound s _⟩, execResult_of_next rfl hfault⟩

end Sys2Proof.Machine

/-! ### Faults, the gate and the ticks -/

namespace Sys2Proof.Machine

/-! Why an instruction faults, and that it does nothing else then (R205 to R210). -/

/-- The causes an instruction has for a fault in its execute phase, each with its code. -/
inductive ExecCause (s : State) : Instr → FaultCode → Prop where
  /-- A call on a full stack (R209). -/
  | call (nnn : Nat) (hfull : 16 ≤ s.sp) : ExecCause s (.call nnn) .stackOverflow
  /-- A return on an empty stack (R210). -/
  | ret (hempty : s.sp = 0) : ExecCause s .ret .stackUnderflow
  /-- An access that leaves memory (R207). -/
  | data {i : Instr} (hn : 1 ≤ bytesAccessed i) (hout : 4095 < s.i.toNat + bytesAccessed i - 1) :
      ExecCause s i .dataOutOfRange
  /-- EX9E with an index that names no key (R208). -/
  | skp (x : Reg) (hx : 15 < (s.reg x).toNat) : ExecCause s (.skp x) .keyIndexOutOfRange
  /-- EXA1 with an index that names no key (R208). -/
  | sknp (x : Reg) (hx : 15 < (s.reg x).toNat) : ExecCause s (.sknp x) .keyIndexOutOfRange

theorem not_keyIndexOk {b : Byte} (h : 15 < b.toNat) : ¬keyIndexOk b = true := mt (keyIndexOk_iff b).1 h.not_ge

/-- An instruction with a cause for a fault raises it. -/
theorem ExecCause.exec_eq {s : State} {i : Instr} {code : FaultCode} (h : ExecCause s i code) :
    exec i s = raise code (encode i) s := by
  cases h with
  | call nnn hfull => exact if_pos hfull
  | ret hempty => exact if_pos hempty
  | data hn hout => exact exec_of_dataOutOfRange hn hout
  | skp x hx => exact exec_skp_of_not_keyIndexOk (not_keyIndexOk hx)
  | sknp x hx => exact exec_sknp_of_not_keyIndexOk (not_keyIndexOk hx)

/-- Settles O19. -/
theorem stackFaultsAreFatal : Obligations.StackFaultsAreFatal :=
  ⟨fun _ nnn hfull => ⟨_, (ExecCause.call nnn hfull.ge).exec_eq, raised_of_raise rfl⟩,
    fun _ hempty => ⟨_, (ExecCause.ret hempty).exec_eq, raised_of_raise rfl⟩⟩

theorem ExecCause.ne_fetchOutOfRange {s : State} {i : Instr} {code : FaultCode} (h : ExecCause s i code) :
    code ≠ .fetchOutOfRange := by
  cases h <;> decide

theorem execResult_of_execCause {s : State} {i : Instr} {code : FaultCode} (h : ExecCause s i code) :
    execResult i s = quiet (.fault code) := by
  have hcode : code ≠ .none := by cases h <;> decide
  simp [execResult, h.exec_eq, raise, hcode]

/-- An access stays in memory or has the cause of its fault (R65). -/
theorem inRange_or_execCause (s : State) (i : Instr) :
    (bytesAccessed i = 0 ∨ s.i.toNat + bytesAccessed i - 1 ≤ 4095) ∨ ExecCause s i .dataOutOfRange := by
  by_cases hin : bytesAccessed i = 0 ∨ s.i.toNat + bytesAccessed i - 1 ≤ 4095
  · exact .inl hin
  · exact .inr (.data (by omega) (by omega))

/-- An instruction without a cause for a fault completes: the eight that check something first, the key wait, which
checks nothing but branches, and the rest, which have one next state. -/
theorem completes_or_execCause {s : State} (hs : s.fault = .none) (i : Instr) :
    completes i s ∨ ∃ code, ExecCause s i code := by
  have hrange := inRange_or_execCause s i
  cases i with
  | ret =>
    obtain hempty | hentry := Nat.eq_zero_or_pos s.sp
    · exact .inr ⟨_, .ret hempty⟩
    · exact .inl ⟨_, exec_ret_of_entry hentry, hs⟩
  | call nnn =>
    obtain hroom | hfull := Nat.lt_or_ge s.sp 16
    · exact .inl ⟨_, exec_call_of_room nnn hroom, hs⟩
    · exact .inr ⟨_, .call nnn hfull⟩
  | skp x =>
    obtain hx | hx := le_or_gt (s.reg x).toNat 15
    · exact .inl ⟨_, exec_skp_of_keyIndexOk ((keyIndexOk_iff _).2 hx), by simp [hs]⟩
    · exact .inr ⟨_, .skp x hx⟩
  | sknp x =>
    obtain hx | hx := le_or_gt (s.reg x).toNat 15
    · exact .inl ⟨_, exec_sknp_of_keyIndexOk ((keyIndexOk_iff _).2 hx), by simp [hs]⟩
    · exact .inr ⟨_, .sknp x hx⟩
  | drw | ldB | stRegs | ldRegs =>
    obtain hin | hout := hrange
    · exact .inl ⟨_, if_pos ((s.dataInRange_iff _).2 hin), hs⟩
    · exact .inr ⟨_, hout⟩
  | ldVxK x =>
    cases hk : selectKey s with
    | none => exact .inl ⟨_, exec_ldVxK_of_keys_eq_zero x ((selectKey_eq_none_iff_keys s).1 hk), hs⟩
    | some k => exact .inl ⟨_, exec_ldVxK_of_selectKey x hk, hs⟩
  | seImm | sneImm | seReg | sneReg | rnd => exact .inl ⟨_, rfl, by simp [hs]⟩
  | _ => exact .inl ⟨_, rfl, hs⟩

/-! Why a step faults, what it leaves then, and what it reports (R200, R201, R205, R206, R212). -/

/-- The causes of a fault in a step of an active machine. -/
inductive StepCause (s : State) : FaultCode → Prop where
  /-- A fetch that leaves memory (R206). -/
  | fetch (hpc : 4094 < s.pc.toNat) : StepCause s .fetchOutOfRange
  /-- A word that matches no instruction, under the policy `fatal` (R212). -/
  | word (hpc : s.pc.toNat ≤ 4094) (hd : decodeWord s.fetchWord = none) (hp : Config.unimplPolicy = .fatal) :
      StepCause s .unimplementedOpcode
  /-- The instruction has a cause. -/
  | instr {i : Instr} {code : FaultCode} (hpc : s.pc.toNat ≤ 4094) (hd : decodeWord s.fetchWord = some i)
      (hcause : ExecCause s.advance i code) : StepCause s code

theorem not_fetchable_of_lt {s : State} (h : 4094 < s.pc.toNat) : s.fetchable = false := by
  rw [Bool.eq_false_iff, ne_eq, s.fetchable_iff]
  omega

theorem unimplemented_of_skipReport (hp : Config.unimplPolicy = .skipReport) (w : Word) (s : State) :
    unimplemented w s = .next s := by simp only [unimplemented, hp]

theorem unimplemented_of_fatal (hp : Config.unimplPolicy = .fatal) (w : Word) (s : State) :
    unimplemented w s = raise .unimplementedOpcode w s := by simp only [unimplemented, hp]

section
variable {s : State} {code : FaultCode} (hactive : s.active = true)
include hactive

theorem cycleResult_of_not_fetchable (hfetch : s.fetchable = false) :
    cycleResult s = quiet (.fault .fetchOutOfRange) := by simp [cycleResult, hactive, hfetch]

theorem cycleResult_of_decode {i : Instr} (hfetch : s.fetchable = true) (hd : decodeWord s.fetchWord = some i) :
    cycleResult s = execResult i s.advance := by simp [cycleResult, hactive, hfetch, hd]

theorem cycleResult_of_unimplemented (hfetch : s.fetchable = true) (hd : decodeWord s.fetchWord = none) :
    cycleResult s = quiet (unimplementedStatus s.fetchWord) := by simp [cycleResult, hactive, hfetch, hd]

/-- What a step with a cause for a fault leaves: the latch, after the advance unless the fetch faults. -/
theorem StepCause.step_eq (h : StepCause s code) :
    code = .fetchOutOfRange ∧ step s = .next (s.latch code s.pc 0) ∨
    code ≠ .fetchOutOfRange ∧ step s = .next (s.advance.latch code s.pc s.fetchWord) := by
  have hback : s.advance.pc - 2 = s.pc := BitVec.add_sub_cancel s.pc 2
  cases h with
  | fetch hpc => exact .inl ⟨rfl, step_of_not_fetchable hactive (not_fetchable_of_lt hpc)⟩
  | word hle hd hp =>
    refine .inr ⟨by decide, ?_⟩
    rw [step_of_unimplemented hactive (s.fetchable_iff.2 hle) hd, unimplemented_of_fatal hp, raise, hback]
  | instr hle hd hcause =>
    refine .inr ⟨hcause.ne_fetchOutOfRange, ?_⟩
    rw [step_of_decode hactive (s.fetchable_iff.2 hle) hd, hcause.exec_eq, raise, hback, encode_of_decodeWord hd]

/-- A step with a cause for a fault reports that fault, and neither redraw nor tone. -/
theorem StepCause.cycleResult_eq (h : StepCause s code) : cycleResult s = ⟨.fault code, false, false⟩ := by
  cases h with
  | fetch hpc => exact cycleResult_of_not_fetchable hactive (not_fetchable_of_lt hpc)
  | word hle hd hp =>
    rw [cycleResult_of_unimplemented hactive (s.fetchable_iff.2 hle) hd, unimplementedStatus, hp]
    rfl
  | instr hle hd hcause =>
    rw [cycleResult_of_decode hactive (s.fetchable_iff.2 hle) hd]
    exact execResult_of_execCause hcause

/-- A step without a cause for a fault leaves a state without one. -/
theorem faultless_or_stepCause :
    (∃ t, step s = .next t ∧ t.fault = .none) ∨ ∃ code, StepCause s code := by
  have hs : s.advance.fault = .none := fault_advance_of_active hactive
  obtain hpc | hpc := le_or_gt s.pc.toNat 4094
  · have hfetch := s.fetchable_iff.2 hpc
    cases hd : decodeWord s.fetchWord with
    | some i =>
      rw [step_of_decode hactive hfetch hd]
      exact (completes_or_execCause hs i).imp id fun ⟨code, hcause⟩ => ⟨code, .instr hpc hd hcause⟩
    | none =>
      rw [step_of_unimplemented hactive hfetch hd]
      cases hp : Config.unimplPolicy with
      | skipReport => exact .inl ⟨_, unimplemented_of_skipReport hp _ _, hs⟩
      | fatal => exact .inr ⟨_, .word hpc hd hp⟩
  · exact .inr ⟨_, .fetch hpc⟩

theorem StepCause.fault_eq (h : StepCause s code) {t : State} (hstep : step s = .next t) : t.fault = code := by
  obtain ⟨-, heq⟩ | ⟨-, heq⟩ := h.step_eq hactive
  · cases hstep.symm.trans heq
    rfl
  · cases hstep.symm.trans heq
    rfl

/-- A step that leaves a latched fault had the cause of that fault. -/
theorem stepCause_of_fault {t : State} (hstep : step s = .next t) (hfault : t.fault ≠ .none) :
    StepCause s t.fault := by
  obtain ⟨u, heq, hu⟩ | ⟨code, hcause⟩ := faultless_or_stepCause hactive
  · cases hstep.symm.trans heq
    exact absurd hu hfault
  · exact hcause.fault_eq hactive hstep ▸ hcause

theorem fault_eq_iff_stepCause {t : State} (hstep : step s = .next t) (hcode : code ≠ .none) :
    t.fault = code ↔ StepCause s code := by
  constructor
  · rintro rfl
    exact stepCause_of_fault hactive hstep hcode
  · exact fun hcause => hcause.fault_eq hactive hstep

end

/-! The cause of each code. -/

section
variable {s : State}

theorem stepCause_fetchOutOfRange_iff : StepCause s .fetchOutOfRange ↔ 4094 < s.pc.toNat := by
  constructor
  · intro h
    cases h with
    | fetch hpc => exact hpc
    | instr _ _ hcause => cases hcause
  · exact .fetch

theorem stepCause_unimplementedOpcode_iff : StepCause s .unimplementedOpcode ↔
    s.pc.toNat ≤ 4094 ∧ decodeWord s.fetchWord = none ∧ Config.unimplPolicy = .fatal := by
  constructor
  · intro h
    cases h with
    | word hpc hd hp => exact ⟨hpc, hd, hp⟩
    | instr _ _ hcause => cases hcause
  · exact fun ⟨hpc, hd, hp⟩ => .word hpc hd hp

theorem stepCause_stackOverflow_iff : StepCause s .stackOverflow ↔
    s.pc.toNat ≤ 4094 ∧ 16 ≤ s.sp ∧ ∃ nnn, decodeWord s.fetchWord = some (.call nnn) := by
  constructor
  · rintro (_ | _ | ⟨hpc, hd, hcause⟩)
    cases hcause with
    | call nnn hfull => exact ⟨hpc, hfull, nnn, hd⟩
  · exact fun ⟨hpc, hfull, nnn, hd⟩ => .instr hpc hd (.call nnn hfull)

theorem stepCause_stackUnderflow_iff : StepCause s .stackUnderflow ↔
    s.pc.toNat ≤ 4094 ∧ s.sp = 0 ∧ decodeWord s.fetchWord = some .ret := by
  constructor
  · rintro (_ | _ | ⟨hpc, hd, hcause⟩)
    cases hcause with
    | ret hempty => exact ⟨hpc, hempty, hd⟩
  · exact fun ⟨hpc, hempty, hd⟩ => .instr hpc hd (.ret hempty)

theorem stepCause_dataOutOfRange_iff : StepCause s .dataOutOfRange ↔
    s.pc.toNat ≤ 4094 ∧ ∃ i, decodeWord s.fetchWord = some i ∧
      1 ≤ bytesAccessed i ∧ 4095 < s.i.toNat + bytesAccessed i - 1 := by
  constructor
  · rintro (_ | _ | ⟨hpc, hd, hcause⟩)
    cases hcause with
    | data hn hout => exact ⟨hpc, _, hd, hn, hout⟩
  · exact fun ⟨hpc, _, hd, hn, hout⟩ => .instr hpc hd (.data hn hout)

theorem stepCause_keyIndexOutOfRange_iff : StepCause s .keyIndexOutOfRange ↔
    s.pc.toNat ≤ 4094 ∧ ∃ x, 15 < (s.reg x).toNat ∧
      (decodeWord s.fetchWord = some (.skp x) ∨ decodeWord s.fetchWord = some (.sknp x)) := by
  constructor
  · rintro (_ | _ | ⟨hpc, hd, hcause⟩)
    cases hcause with
    | skp x hx => exact ⟨hpc, x, hx, .inl hd⟩
    | sknp x hx => exact ⟨hpc, x, hx, .inr hd⟩
  · rintro ⟨hpc, x, hx, hd | hd⟩
    · exact .instr hpc hd (.skp x hx)
    · exact .instr hpc hd (.sknp x hx)

end

/-- Settles O44: a step latches a fault exactly when it has the cause of that fault. -/
theorem eachFaultHasItsCause : Obligations.EachFaultHasItsCause := by
  intro s t hrun hfault hstep
  have hiff {code : FaultCode} (hcode : code ≠ .none) : t.fault = code ↔ StepCause s code :=
    fault_eq_iff_stepCause (s.active_iff.2 ⟨hrun, hfault⟩) hstep hcode
  exact ⟨(hiff (by decide)).trans stepCause_fetchOutOfRange_iff,
    (hiff (by decide)).trans stepCause_unimplementedOpcode_iff,
    (hiff (by decide)).trans stepCause_stackOverflow_iff,
    (hiff (by decide)).trans stepCause_stackUnderflow_iff,
    (hiff (by decide)).trans stepCause_dataOutOfRange_iff,
    (hiff (by decide)).trans stepCause_keyIndexOutOfRange_iff⟩

theorem sameExcept_advance (s : State) : sameExcept [.pc] s s.advance := by simp [sameExcept]

theorem sameExcept_advance_latch (s : State) (c : FaultCode) (a w : Word) :
    sameExcept [.pc, .latch] s (s.advance.latch c a w) := by simp [sameExcept]

theorem sameExcept_pc_latch (s : State) (c : FaultCode) (a w : Word) :
    sameExcept [.pc, .latch] s (s.latch c a w) := by simp [sameExcept]

/-- Settles O43: the fault had its cause, which fixes the state and the result. -/
theorem faultsArePrecise : Obligations.FaultsArePrecise := by
  intro s t hrun hfault hstep hlatched
  have hactive := s.active_iff.2 ⟨hrun, hfault⟩
  have hcause := stepCause_of_fault hactive hstep hlatched
  have hresult := hcause.cycleResult_eq hactive
  generalize t.fault = code at hcause hresult ⊢
  obtain ⟨hcode, heq⟩ | ⟨hcode, heq⟩ := hcause.step_eq hactive
  · cases hstep.symm.trans heq
    exact ⟨sameExcept_pc_latch s _ _ _, rfl, hresult, fun _ => ⟨rfl, rfl⟩, fun hne => absurd hcode hne⟩
  · cases hstep.symm.trans heq
    exact ⟨sameExcept_advance_latch s _ _ _, rfl, hresult, fun hfetch => absurd hfetch hcode, fun _ => ⟨rfl, rfl⟩⟩

/-- Settles O42: a step is ignored, or leaves no fault, or takes one. -/
theorem everyStepLeavesANextState : Obligations.EveryStepLeavesANextState := by
  intro s
  by_cases hactive : s.active = true
  · obtain ⟨t, hstep, -⟩ | ⟨code, hcause⟩ := faultless_or_stepCause hactive
    · exact ⟨t, hstep⟩
    · obtain ⟨-, hstep⟩ | ⟨-, hstep⟩ := hcause.step_eq hactive
      · exact ⟨_, hstep⟩
      · exact ⟨_, hstep⟩
  · exact ⟨s, step_of_not_active (Bool.eq_false_iff.2 hactive)⟩

/-- Settles O38. -/
theorem stepRunsTheDecodedInstruction : Obligations.StepRunsTheDecodedInstruction := fun s _ hrun hfault hpc hd =>
  ⟨step_of_decode (s.active_iff.2 ⟨hrun, hfault⟩) (s.fetchable_iff.2 hpc) hd, rfl, sameExcept_advance s⟩

/-- Settles O40. -/
theorem unimplementedWordFollowsThePolicy : Obligations.UnimplementedWordFollowsThePolicy := by
  intro s hrun hfault hpc hd
  have hactive := s.active_iff.2 ⟨hrun, hfault⟩
  have hfetch := s.fetchable_iff.2 hpc
  cases hp : Config.unimplPolicy with
  | skipReport =>
    have hstep := (step_of_unimplemented hactive hfetch hd).trans (unimplemented_of_skipReport hp _ _)
    refine ⟨_, hstep, rfl, fun _ => ⟨sameExcept_advance s, ?_⟩, nofun⟩
    rw [cycleResult_of_unimplemented hactive hfetch hd, unimplementedStatus, hp]
    rfl
  | fatal =>
    have hcause : StepCause s .unimplementedOpcode := .word hpc hd hp
    obtain ⟨hcode, -⟩ | ⟨-, hstep⟩ := hcause.step_eq hactive
    · cases hcode
    · exact ⟨_, hstep, rfl, nofun, fun _ => ⟨rfl, rfl, rfl, sameExcept_advance_latch s _ _ _,
        hcause.cycleResult_eq hactive⟩⟩

/-! A shut gate, and the count of the timers (R220, R221, R225). -/

theorem cycleResult_of_not_active {s : State} (h : s.active = false) : cycleResult s = ⟨.ignored, false, false⟩ := by
  simp [cycleResult, h, quiet]

theorem tickResult_of_not_active {s : State} (h : s.active = false) : tickResult s = ⟨decide (s.st ≠ 0), false⟩ := by
  simp [tickResult, tick_of_not_active h, State.soundOn, h]

/-- Settles O41. -/
theorem shutGateIgnoresStepAndTick : Obligations.ShutGateIgnoresStepAndTick := by
  intro s hshut
  have hactive : s.active = false := by
    rw [Bool.eq_false_iff, ne_eq, s.active_iff]
    exact not_and_or.2 hshut
  exact ⟨step_of_not_active hactive, tick_of_not_active hactive, cycleResult_of_not_active hactive,
    tickResult_of_not_active hactive⟩

theorem countDown_toNat (b : Byte) : (countDown b).toNat = b.toNat - 1 := by
  unfold countDown
  split
  · simp [*]
  · bv_omega

theorem sameExcept_timers (s : State) (d b : Byte) : sameExcept [.delay, .sound] s { s with dt := d, st := b } := by
  simp [sameExcept, State.reg, State.stack, State.cell, State.read]

section
variable {s : State} (h : s.active = true)
include h

theorem tick_of_active : tick s = { s with dt := countDown s.dt, st := countDown s.st } := if_pos h

theorem tick_dt_toNat : (tick s).dt.toNat = s.dt.toNat - 1 := by rw [tick_of_active h, countDown_toNat]

theorem tick_st_toNat : (tick s).st.toNat = s.st.toNat - 1 := by rw [tick_of_active h, countDown_toNat]

theorem tick_active : (tick s).active = true := by
  rw [tick_of_active h]
  exact h

theorem sameExcept_tick : sameExcept [.delay, .sound] s (tick s) := by
  rw [tick_of_active h]
  exact sameExcept_timers s _ _

theorem tickResult_of_active : tickResult s = ⟨decide ((tick s).st ≠ 0), decide (s.st = 1)⟩ := by
  simp [tickResult, State.soundOn, h]

end

/-- Settles O53. -/
theorem tickCountsBothTimersDown : Obligations.TickCountsBothTimersDown := fun _ =>
  ⟨fun h => ⟨tick_of_not_active h, tickResult_of_not_active h⟩,
    fun h => ⟨tick_dt_toNat h, tick_st_toNat h, sameExcept_tick h, tickResult_of_active h⟩⟩

/-- Settles O54, by induction on the number of ticks: the first tick takes 1 from each timer and leaves the gate
open. -/
theorem ticksBringTimersToZero : Obligations.TicksBringTimersToZero := by
  intro n
  induction n with
  | zero => exact fun s _ => ⟨rfl, rfl⟩
  | succ n ih =>
    intro s h
    obtain ⟨hdt, hst⟩ := ih (tick s) (tick_active h)
    have hdt' := tick_dt_toNat h
    have hst' := tick_st_toNat h
    rw [Function.iterate_succ_apply]
    omega

end Sys2Proof.Machine

/-! ### The end of a run, and LOAD -/

namespace Sys2Proof.Machine

/-- The word of a jump to an address below 4096 is the address under the digit 1 (R86). -/
theorem encode_jp_toNat {w : Word} (h : w.toNat < 4096) : encode (.jp w.toNat) = 0x1000 ||| w := by
  have hplace : placeNNN w.toNat = w := by
    apply BitVec.eq_of_toNat_eq
    simp only [placeNNN, BitVec.toNat_setWidth, BitVec.toNat_ofNat]
    omega
  rw [encode, hplace]

theorem target_of_toNat (w : Word) : target w.toNat = w := by simp [target]

/-- The word at `PC` of an ended run decodes to the jump to `PC` itself (R258). -/
theorem State.endedNormally.decodeWord_fetchWord {s : State} (h : s.endedNormally) :
    decodeWord s.fetchWord = some (.jp s.pc.toNat) := by
  obtain ⟨-, -, hfetch, hword⟩ := h
  have hpc : s.pc.toNat < 4096 := Nat.lt_of_le_of_lt (s.fetchable_iff.1 hfetch) (by decide)
  rw [hword, ← encode_jp_toNat hpc]
  exact decodeWord_encode (decide_eq_true hpc)

/-- Settles O46: the step runs the self-jump, which takes the advance of `PC` back. -/
theorem endedRunIsAFixedPointOfTheStep : Obligations.EndedRunIsAFixedPointOfTheStep := by
  intro s h
  have hjump := h.decodeWord_fetchWord
  obtain ⟨hrun, hfault, hfetch, -⟩ := h
  calc step s = exec (.jp s.pc.toNat) s.advance := step_of_decode (s.active_iff.2 ⟨hrun, hfault⟩) hfetch hjump
    _ = .next (s.advance.setPc (target s.pc.toNat)) := rfl
    _ = .next s := by
      rw [target_of_toNat]
      rfl

theorem sameExcept_resetEvent (s : State) : sameExcept [.random] State.reset (resetEvent s) := by
  simp [sameExcept, resetEvent, State.reg, State.stack, State.cell, State.read]

section
variable {bytes : List Byte}

theorem programFits_iff : programFits bytes = true ↔ bytes.length ≤ 3584 := by simp [programFits]

theorem loadResult_of_fits (h : bytes.length ≤ 3584) : loadResult bytes = .ok := if_pos (programFits_iff.2 h)

theorem loadResult_of_oversized (h : 3584 < bytes.length) : loadResult bytes = .capacityError :=
  if_neg fun hfits => h.not_ge (programFits_iff.1 hfits)

theorem loadEvent_of_fits (h : bytes.length ≤ 3584) (s : State) :
    loadEvent bytes s = { resetEvent s with mem := Memory.writeList [] 0x200 bytes, runState := .running } :=
  if_pos (programFits_iff.2 h)

theorem loadEvent_of_oversized (h : 3584 < bytes.length) (s : State) : loadEvent bytes s = resetEvent s :=
  if_neg fun hfits => h.not_ge (programFits_iff.1 hfits)

theorem loadEvent_read_program (h : bytes.length ≤ 3584) (s : State) {k : Nat} (hk : k < bytes.length) :
    (loadEvent bytes s).read (0x200 + k) = bytes[k] := by
  have hend : 0x200 + bytes.length ≤ Config.memSize := Nat.add_le_add_left h 0x200
  rw [loadEvent_of_fits h]
  exact Memory.read_writeList_same (m := []) rfl hk hend

theorem loadEvent_read_outside (h : bytes.length ≤ 3584) (s : State) {a : Nat}
    (ha : a < 0x200 ∨ 0x200 + bytes.length ≤ a) : (loadEvent bytes s).read a = State.reset.read a := by
  rw [loadEvent_of_fits h]
  exact Memory.read_writeList_other [] bytes ha

theorem sameExcept_loadEvent (h : bytes.length ≤ 3584) (s : State) :
    sameExcept [.memory, .runState] (resetEvent s) (loadEvent bytes s) := by
  rw [loadEvent_of_fits h]
  simp [sameExcept, State.reg, State.stack, State.cell]

end

/-- Settles O57. -/
theorem loadPlacesTheProgram : Obligations.LoadPlacesTheProgram := by
  intro bytes s h
  have hprogram : ∀ k, k < bytes.length → some ((loadEvent bytes s).read (0x200 + k)) = bytes[k]? := fun k hk => by
    rw [loadEvent_read_program h s hk, List.getElem?_eq_getElem hk]
  have hrun : (loadEvent bytes s).runState = .running := by rw [loadEvent_of_fits h]
  exact ⟨loadResult_of_fits h, hprogram, fun _ => loadEvent_read_outside h s, hrun, sameExcept_loadEvent h s⟩

/-- Settles O58. -/
theorem oversizedLoadIsAReset : Obligations.OversizedLoadIsAReset := fun _ s h =>
  ⟨loadResult_of_oversized h, loadEvent_of_oversized h s, sameExcept_resetEvent s⟩

end Sys2Proof.Machine
